-- ==== Sys2Proof/Word.lean ====
section
/-! DEFINITION. The words of the block (spec/00_scope.md R6, R7; spec/10_state.md R13, R19, R23). -/

namespace Sys2Proof

/-- A command word `CMD[71:0]` (R42). -/
abbrev CmdWord := BitVec 72

/-- The opcode field `CMD[71:64]` (R42). -/
abbrev Opcode := BitVec 8

/-- A response word `RSP[33:0]` (R46). -/
abbrev RspWord := BitVec 34

/-- The value of the frame register, 60 bits (R13; `FRAME_W` of R6). -/
abbrev Frame := BitVec 60

/-- A segment duration, an unsigned 16-bit count of milliseconds (R48; `DUR_W` and `TICK` of R6). -/
abbrev Duration := BitVec 16

end Sys2Proof
end

