-- ==== Sys2Proof/Config.lean ====
section
/-! DEFINITION. What is fixed for a machine: the parameters of spec/00_scope.md R6 and the host time
services `TS` of spec/10_state.md R24, R29. -/

namespace Sys2Proof

/-- `T_MIN`, the lowest admitted instant, 0001-01-01T00:00:00Z (R6, R57). -/
def Config.tMin : Int := -62135596800

/-- `T_MAX`, the highest admitted instant, 9999-12-31T23:59:59Z (R6, R57). -/
def Config.tMax : Int := 253402300799

/-- `D_MARKER`, the LOW time of a marker (R6). -/
def Config.dMarker : Duration := 800

/-- `D_ONE`, the LOW time of a data 1 (R6). -/
def Config.dOne : Duration := 500

/-- `D_ZERO`, the LOW time of a data 0 (R6). -/
def Config.dZero : Duration := 200

/-- `SECOND_LEN`, the length of one second in `TICK` (R6). -/
def Config.secondLen : Nat := 1000

/-- `DAY_S`, the announcement look-ahead in seconds (R6, R67). -/
def Config.dayS : Int := 86400

/-- The host time services `TS` (R24): two total, deterministic functions and nothing more. -/
structure TimeServices where
  /-- `TS.LocalMidnight(y, m, d)`: the instant of the local calendar time y-m-d 00:00:00. -/
  localMidnight : Int → Int → Int → Int
  /-- `TS.LocalIsDst(t)`: the DST flag of the local decomposition of the instant t. -/
  localIsDst : Int → Bool
  deriving Inhabited

/-- The `TS` of a run: a model argument the spec leaves OPEN (R6, R24; D15), so a constant with no body.
Nothing can be proved of its answers; a statement about it holds for every host (log entry 2). -/
opaque Config.timeServices : TimeServices

end Sys2Proof
end

