-- ==== Sys2Proof/Syntax.lean ====
section
/-! DEFINITION. The two commands of the command port (spec/30_encoding.md R41; spec/opcode_table.json). -/

namespace Sys2Proof

/-- One constructor per row of spec/opcode_table.json. The operands are the numbers R44 and R45 read from
`CMD[63:0]`; `Instr.wellFormed` says which of them an operand field can hold. -/
inductive Instr where
  /-- `prepare` (PREPARE_MINUTE): the instant, a signed count of seconds (R44). -/
  | prepare (instant : Int)
  /-- `getmod` (GET_MODULATION): the second index, unsigned (R45). -/
  | getmod (second : Nat)
  deriving DecidableEq, Repr

end Sys2Proof
end

