-- ==== Sys2Proof/WellFormed.lean ====
section
/-! DEFINITION. Which commands a 72-bit word can carry (spec/30_encoding.md R44, R45). -/

namespace Sys2Proof

/-- The operand fits its 64-bit field: `-2^63 <= instant < 2^63` (R44), `second < 2^64` (R45). -/
def Instr.wellFormed : Instr → Bool
  | .prepare instant => decide (-9223372036854775808 ≤ instant) && decide (instant < 9223372036854775808)
  | .getmod second => decide (second < 18446744073709551616)

end Sys2Proof
end

