-- ==== Sys2Proof/Decode.lean ====
section
/-! DEFINITION. Decoding and encoding of command words (spec/30_encoding.md R42 to R45, R50, R51). -/

namespace Sys2Proof

/-- What a 72-bit word decodes to (R51): a command, or an illegal word named by its opcode (R50). -/
inductive Decoded where
  | instr (i : Instr)
  | illegal (opc : Opcode)
  deriving DecidableEq, Repr

/-- The field `OPC = CMD[71:64]` (R42). -/
def opcOf (w : CmdWord) : Opcode := w.extractLsb' 64 8

/-- The field `OPERAND = CMD[63:0]` (R42). -/
def operandOf (w : CmdWord) : BitVec 64 := w.extractLsb' 0 64

/-- The opcode of PREPARE_MINUTE (R43). -/
def opcPrepare : Opcode := 0x01

/-- The opcode of GET_MODULATION (R43). -/
def opcGetmod : Opcode := 0x02

/-- The decoder, total on every 72-bit word and chosen by `OPC` alone (R51). -/
def decode (w : CmdWord) : Decoded :=
  if opcOf w = opcPrepare then .instr (.prepare (operandOf w).toInt)
  else if opcOf w = opcGetmod then .instr (.getmod (operandOf w).toNat)
  else .illegal (opcOf w)

/-- A command word from its two fields (R42). -/
def packCommand (opc : Opcode) (operand : BitVec 64) : CmdWord := opc.setWidth 72 <<< 64 ||| operand.setWidth 72

/-- The opcode of a command (R43). -/
def Instr.opcode : Instr → Opcode
  | .prepare _ => opcPrepare
  | .getmod _ => opcGetmod

/-- The operand field of a command: two's complement for an instant (R44), unsigned for a second (R45). -/
def Instr.operand : Instr → BitVec 64
  | .prepare instant => BitVec.ofInt 64 instant
  | .getmod second => BitVec.ofNat 64 second

/-- The word of a command (R42 to R45). For an ill-formed command the operand is cut to 64 bits, which no
statement uses (log entry 9). -/
def encode (i : Instr) : CmdWord := packCommand i.opcode i.operand

/-- The match column of R43's table. -/
def Instr.tableMatch : Instr → CmdWord
  | .prepare _ => 0x010000000000000000
  | .getmod _ => 0x020000000000000000

/-- The mask column of R43's table. -/
def Instr.tableMask : Instr → CmdWord
  | .prepare _ => 0xFF0000000000000000
  | .getmod _ => 0xFF0000000000000000

/-- The command word whose low `nbits` bits are those of `w`, every bit above them 0. -/
def tableWord (nbits w : Nat) : CmdWord := BitVec.ofNat 72 (w % 2 ^ nbits)

/-- The instruction the decoder reads from a word given as the opcode table numbers its bits; `none` where
the word is illegal. -/
def decodeTableWord (nbits w : Nat) : Option Instr :=
  match decode (tableWord nbits w) with
  | .instr i => some i
  | .illegal _ => none

end Sys2Proof
end

