-- ==== Sys2Proof/Machine/State.lean ====
section
/-! DEFINITION. The state of the block (spec/10_state.md R13, R17, R18, R19, R28) and, beside it, the two
ports as plain data (R23; spec/70_reset_and_hazards.md R106, R107). -/

namespace Sys2Proof.Machine

/-- The four values of the 2-bit register `FAULT_CODE` (R18, R83). `FaultCode.bits` gives their codes. -/
inductive FaultCode where
  /-- `NONE`: no fault recorded. -/
  | none
  /-- `F_ILLEGAL`: `CMD[71:64]` is not 0x01 or 0x02 (R50). -/
  | illegal
  /-- `F_DOMAIN`: PREPARE_MINUTE with an instant outside the domain (R57). -/
  | domain
  /-- `F_UNPREPARED`: GET_MODULATION of a data second while nothing is prepared (R78). -/
  | unprepared
  deriving DecidableEq, Repr

/-- A host event (R106): a command word offered on `CMD`, or an event on `RESET` (R23). -/
inductive HostEvent where
  | command (w : CmdWord)
  | reset
  deriving DecidableEq, Repr

/-- A response word on `RSP`, with the command word that gave it (R46, R107). -/
structure Response where
  cmd : CmdWord
  word : RspWord
  deriving DecidableEq, Repr

/-- The state. The first four fields are the whole machine state of R28; the last two are the model's own
and stand for the ports (log entries 3 and 4). -/
structure State where
  /-- `FRAME` (R13): the prepared frame; `none` is the spec's own "holds no value". -/
  frame : Option Frame
  /-- `FRAME_VALID` (R17). -/
  frameValid : Bool
  /-- `FAULT_CODE` (R18). -/
  faultCode : FaultCode
  /-- `FAULT_CMD` (R19): `none` is the spec's own "holds no value". -/
  faultCmd : Option CmdWord
  /-- What the host has still to send, in acceptance order (ports `CMD` and `RESET`; R20, R23, R38). -/
  pending : List HostEvent
  /-- The response words given so far, oldest first (port `RSP`; R107). -/
  responses : List Response
  deriving DecidableEq, Repr

/-- Reasons for which a step stops with no next state: none. A model fault of the block is recorded in
`FAULT_CODE` and is a next state (R84), so nothing raises one of these. Safe (log entry 7). -/
inductive Fault where
  deriving DecidableEq, Repr

/-- Reasons for which a step has no meaning. -/
inductive Refusal where
  /-- An instruction that is not modelled yet, by its mnemonic. Every instruction of this block is modelled,
  so nothing raises it. Safe. -/
  | notModelled (mnemonic : String)
  deriving DecidableEq, Repr

/-- The machine right after reset (R97), with nothing offered and nothing answered (log entries 3, 4). -/
def State.reset : State :=
  { frame := none, frameValid := false, faultCode := .none, faultCmd := none, pending := [], responses := [] }

end Sys2Proof.Machine
end

