-- ==== Sys2Proof/Machine/Operands.lean ====
section
/-! DEFINITION. Operand forms (spec/30_encoding.md R44, R45): the domain of an instant
(spec/41_frame_encoder.md R57) and the host's duty on a signed second index
(spec/70_reset_and_hazards.md R100). -/

namespace Sys2Proof.Machine

/-- The domain check of PREPARE_MINUTE: `T_MIN <= t <= T_MAX` (R57). -/
def inDomain (t : Int) : Bool := decide (Config.tMin ≤ t) && decide (t ≤ Config.tMax)

/-- The command a host that holds a signed second index may send for it (R100, R45): none for a negative
index, which cannot be encoded, and none for one that does not fit the operand. -/
def hostSecond (i : Int) : Option Instr :=
  if 0 ≤ i ∧ i < 18446744073709551616 then some (.getmod i.toNat) else none

end Sys2Proof.Machine
end

