-- ==== Sys2Proof/Machine/Calendar.lean ====
section
/-! DEFINITION. The calendar-field extractor CFE (spec/41_frame_encoder.md R58 to R61) and the leap-year
unit LYU (R64). `/` and `%` on Int with a positive divisor are the floor `div` and `mod` of
spec/00_scope.md R8. -/

namespace Sys2Proof.Machine

/-- A proleptic-Gregorian date (R12). -/
structure CivilDate where
  year : Int
  month : Int
  day : Int
  deriving DecidableEq, Repr

/-- `days_from_civil(y, m, d)` (R59). -/
def daysFromCivil (y m d : Int) : Int :=
  let y2 := y - (if m ≤ 2 then 1 else 0)
  let era := y2 / 400
  let yoe := y2 - era * 400
  let mp := if m > 2 then m - 3 else m + 9
  let doy := (153 * mp + 2) / 5 + d - 1
  let doe := yoe * 365 + yoe / 4 - yoe / 100 + doy
  era * 146097 + doe - 719468

/-- `civil_from_days(z)` (R60). -/
def civilFromDays (z : Int) : CivilDate :=
  let z2 := z + 719468
  let era := z2 / 146097
  let doe := z2 - era * 146097
  let yoe := (doe - doe / 1460 + doe / 36524 - doe / 146096) / 365
  let doy := doe - (365 * yoe + yoe / 4 - yoe / 100)
  let mp := (5 * doy + 2) / 153
  let d := doy - (153 * mp + 2) / 5 + 1
  let m := if mp < 10 then mp + 3 else mp - 9
  let y := yoe + era * 400 + (if m ≤ 2 then 1 else 0)
  { year := y, month := m, day := d }

/-- `LYU(year)` (R64): the proleptic-Gregorian leap-year rule on the full civil year. -/
def leapYear (year : Int) : Bool := year % 4 == 0 && (year % 100 != 0 || year % 400 == 0)

/-- `yoc = year mod 100` (R61). -/
def yearOfCentury (year : Int) : Int := year % 100

/-- The UTC day number of an instant: `t div 86400` (R58). -/
def dayNumber (t : Int) : Int := t / 86400

/-- The second of the UTC day: `t mod 86400` (R58). -/
def secondOfDay (t : Int) : Int := t % 86400

/-- The UTC date of an instant (R58). -/
def utcDate (t : Int) : CivilDate := civilFromDays (dayNumber t)

/-- `hour = sod div 3600` (R58). -/
def utcHour (t : Int) : Int := secondOfDay t / 3600

/-- `minute = (sod mod 3600) div 60` (R58). -/
def utcMinute (t : Int) : Int := secondOfDay t % 3600 / 60

/-- `yday = days - days_from_civil(year, 1, 1) + 1` (R58). -/
def utcYday (t : Int) : Int := dayNumber t - daysFromCivil (utcDate t).year 1 1 + 1

/-- The number of days of a month in the proleptic-Gregorian calendar (R12; used for the validity of an ISO
literal, R53, and of the dates of R24). -/
def daysInMonth (y m : Int) : Int :=
  if m = 2 then (if leapYear y then 29 else 28)
  else if m = 4 ∨ m = 6 ∨ m = 9 ∨ m = 11 then 30
  else 31

/-- A valid proleptic-Gregorian date: `1 <= m <= 12` and `1 <= d <=` the days of that month (R12, R24). -/
def validDate (y m d : Int) : Bool :=
  decide (1 ≤ m) && decide (m ≤ 12) && decide (1 ≤ d) && decide (d ≤ daysInMonth y m)

end Sys2Proof.Machine
end

