-- ==== Sys2Proof/Machine/Flags.lean ====
section
/-! DEFINITION. The status registers as bits and the `STATUS` port (spec/10_state.md R17, R18, R23;
spec/60_exceptions.md R83). The block has no condition codes (R21). -/

namespace Sys2Proof.Machine

/-- The 2-bit value of `FAULT_CODE` (R18, R83). -/
def FaultCode.bits : FaultCode → BitVec 2
  | .none => 0
  | .illegal => 1
  | .domain => 2
  | .unprepared => 3

/-- The 1-bit value of `FRAME_VALID` (R17). -/
def State.validBit (s : State) : BitVec 1 := BitVec.ofBool s.frameValid

/-- The `STATUS` port: the values of `FRAME_VALID` and `FAULT_CODE` (R23). -/
def State.status (s : State) : BitVec 1 × BitVec 2 := (s.validBit, s.faultCode.bits)

/-- The precondition of both commands: the block accepts a command only while `FAULT_CODE = NONE`
(R56, R73, R85). -/
def State.accepts (s : State) : Bool := s.faultCode == .none

end Sys2Proof.Machine
end

