-- ==== Sys2Proof/Machine/Ops.lean ====
section
/-! DEFINITION. The named operations on the registers and ports: fault entry (spec/60_exceptions.md R84),
acceptance (R85), the frame register (spec/10_state.md R13, R15, R17), a response (R46), reset
(spec/70_reset_and_hazards.md R97) and the event queue (R106). -/

namespace Sys2Proof.Machine

/-- Fault entry, `raise Fault(code, w)` (R84): `FAULT_CODE <- code` and `FAULT_CMD <- w`, and nothing else. -/
def raiseFault (code : FaultCode) (w : CmdWord) (s : State) : State :=
  { s with faultCode := code, faultCmd := some w }

/-- `FRAME <- F ; FRAME_VALID <- 1`, one atomic update (R17, R36, R56). -/
def writeFrame (f : Frame) (s : State) : State := { s with frame := some f, frameValid := true }

/-- The frame a read may use: the value of `FRAME` while `FRAME_VALID = 1` (R13, R17, R73). `none` makes the
read a model fault (R78; log entry 8 for states no run reaches). -/
def readFrame (s : State) : Option Frame := if s.frameValid then s.frame else none

/-- `respond(w)` (R9, R46): the word leaves on `RSP`; no register is written. -/
def respond (cmd : CmdWord) (word : RspWord) (s : State) : State :=
  { s with responses := s.responses ++ [{ cmd := cmd, word := word }] }

/-- Reset (R97): every register takes its reset value. What the host has still to send and what was
answered before are no registers and stay. -/
def resetRegisters (s : State) : State :=
  { s with frame := none, frameValid := false, faultCode := .none, faultCmd := none }

/-- Take the next host event off the port. -/
def withPending (evs : List HostEvent) (s : State) : State := { s with pending := evs }

/-- A command runs only if the block accepts it; while a fault is recorded it is left unaccepted and has no
effect (R85; R56 and R73, preconditions; log entry 5). -/
def ifAccepted (s : State) (done : State) : Host.Outcome State Fault Refusal :=
  if s.accepts then .next done else .next s

end Sys2Proof.Machine
end

