-- ==== Sys2Proof/Machine/FrameEncoder.lean ====
section
/-! DEFINITION. The frame encoder: PREPARE_MINUTE (spec/41_frame_encoder.md R56) over the padded-BCD packer
(R62), the DST lookup (R65 to R67) and the frame assembler (R68). -/

namespace Sys2Proof.Machine

/-- `P(n)`, the padded-BCD value of n: digits in 5-bit lanes at shifts 10, 5 and 0 (R62). -/
def paddedBcd (n : Nat) : Nat := (n / 100 % 10) <<< 10 ||| (n / 10 % 10) <<< 5 ||| n % 10

/-- `FA(minute, hour, yday, yoc, leap, dst_next, dst_now)`, the frame assembler (R68). -/
def assembleFrame (minute hour yday yoc : Nat) (leap dstNext dstNow : Bool) : Frame :=
  BitVec.ofNat 60
    (paddedBcd minute <<< 51 ||| paddedBcd hour <<< 41 ||| paddedBcd yday <<< 26 ||| paddedBcd yoc <<< 6
      ||| leap.toNat <<< 4 ||| dstNext.toNat <<< 2 ||| dstNow.toNat <<< 1)

/-- `tm = TS.LocalMidnight(year, month, mday)` of the UTC date (R65). -/
def localMidnightOf (ts : TimeServices) (t : Int) : Int :=
  ts.localMidnight (utcDate t).year (utcDate t).month (utcDate t).day

/-- `dst_now = TS.LocalIsDst(tm)` (R66). -/
def dstNow (ts : TimeServices) (t : Int) : Bool := ts.localIsDst (localMidnightOf ts t)

/-- `dst_next = TS.LocalIsDst(tm + 86400)` (R67). -/
def dstNext (ts : TimeServices) (t : Int) : Bool := ts.localIsDst (localMidnightOf ts t + Config.dayS)

/-- The frame of the UTC minute that contains t (R56): CFE, LYU and DSTL into FA. -/
def minuteFrame (ts : TimeServices) (t : Int) : Frame :=
  assembleFrame (utcMinute t).toNat (utcHour t).toNat (utcYday t).toNat
    (yearOfCentury (utcDate t).year).toNat (leapYear (utcDate t).year) (dstNext ts t) (dstNow ts t)

/-- The effect of an accepted PREPARE_MINUTE under the time services `ts` (R56): the domain check first
(R57, R86), then the whole frame at once. -/
def prepareMinute (ts : TimeServices) (t : Int) (s : State) : State :=
  if inDomain t then writeFrame (minuteFrame ts t) s
  else raiseFault .domain (encode (.prepare t)) s

/-- PREPARE_MINUTE (R56), under the run's time services. -/
def execPrepare (instant : Int) (s : State) : Host.Outcome State Fault Refusal :=
  ifAccepted s (prepareMinute Config.timeServices instant s)

end Sys2Proof.Machine
end

