-- ==== Sys2Proof/Machine/Modulation.lean ====
section
/-! DEFINITION. Levels, segments and schedules (spec/00_scope.md R11), the response word
(spec/30_encoding.md R46 to R49), the amplitude scheduler AMS (spec/42_second_modulator.md R76) and what a
schedule means in time (R77). -/

namespace Sys2Proof.Machine

/-- A power level (R11, R47). -/
inductive Level where
  | low
  | high
  deriving DecidableEq, Repr

/-- A segment: a level and a duration in milliseconds (R11). -/
structure Segment where
  level : Level
  duration : Duration
  deriving DecidableEq, Repr

/-- A SecondModulation: an ordered pair of segments, `seg0` first in time (R11, R46). -/
structure SecondModulation where
  seg0 : Segment
  seg1 : Segment
  deriving DecidableEq, Repr

/-- The three symbols of the amplitude alphabet (R76). -/
inductive Symbol where
  | marker
  | one
  | zero
  deriving DecidableEq, Repr

/-- The code of a level: `LOW` is 0, `HIGH` is 1 (R47). -/
def Level.bit : Level → BitVec 1
  | .low => 0
  | .high => 1

/-- The level of a code (R47). -/
def Level.ofBit (b : BitVec 1) : Level := if b = 1 then .high else .low

/-- The response word of a schedule, `(L0 << 33) | (D0 << 17) | (L1 << 16) | D1` (R46 to R49). -/
def encodeResponse (m : SecondModulation) : RspWord :=
  m.seg0.level.bit.setWidth 34 <<< 33 ||| m.seg0.duration.setWidth 34 <<< 17
    ||| m.seg1.level.bit.setWidth 34 <<< 16 ||| m.seg1.duration.setWidth 34

/-- The schedule a consumer reads from a response word (R46 to R48). -/
def decodeResponse (w : RspWord) : SecondModulation :=
  { seg0 := { level := Level.ofBit (w.extractLsb' 33 1), duration := w.extractLsb' 17 16 }
    seg1 := { level := Level.ofBit (w.extractLsb' 16 1), duration := w.extractLsb' 0 16 } }

/-- The LOW time of a symbol (R76). -/
def lowTime : Symbol → Duration
  | .marker => Config.dMarker
  | .one => Config.dOne
  | .zero => Config.dZero

/-- AMS, the amplitude scheduler: LOW for the symbol's time, then HIGH to the end of the second (R76). -/
def amplitudeSchedule (y : Symbol) : SecondModulation :=
  { seg0 := { level := .low, duration := lowTime y }, seg1 := { level := .high, duration := 0 } }

/-- The response word of a symbol (R49). -/
def symbolWord (y : Symbol) : RspWord := encodeResponse (amplitudeSchedule y)

/-- The carrier level τ milliseconds after the start of the second (R11, R77): the first segment is held for
its duration, the final one to the end of the second whatever its stated duration. R77 defines the level for
τ below `Config.secondLen` = 1000 only; that the function goes on with the final segment's level from there is
the model's choice (DESIGN CHOICE, log entry 15). -/
def SecondModulation.levelAt (m : SecondModulation) (τ : Nat) : Level :=
  if τ < m.seg0.duration.toNat then m.seg0.level else m.seg1.level

end Sys2Proof.Machine
end

