-- ==== Sys2Proof/Machine/SecondModulator.lean ====
section
/-! DEFINITION. The second modulator: GET_MODULATION (spec/42_second_modulator.md R73) over the second
classifier (R74) and the bit slicer (R75). -/

namespace Sys2Proof.Machine

/-- The class of a second (R74). -/
inductive SecondClass where
  | marker
  | data
  deriving DecidableEq, Repr

/-- `SCL(s)`, the second classifier (R74). -/
def classify (n : Nat) : SecondClass :=
  if n = 0 then .marker
  else if n % 10 = 9 then .marker
  else if n > 59 then .marker
  else .data

/-- `BSL(FRAME, s) = FRAME[59 - s]`, the bit slicer, for a data second (R75). -/
def sliceBit (f : Frame) (n : Nat) : Bool := f.getLsbD (59 - n)

/-- The symbol of a data bit (R76). -/
def bitSymbol : Bool → Symbol
  | true => .one
  | false => .zero

/-- The symbol of second n of a prepared frame (R73 to R76). -/
def secondSymbol (f : Frame) (n : Nat) : Symbol :=
  match classify n with
  | .marker => .marker
  | .data => bitSymbol (sliceBit f n)

/-- The effect of an accepted GET_MODULATION (R73): the classifier first, the frame only for a data second
(R86); an unprepared read is a model fault (R78). -/
def getModulation (n : Nat) (s : State) : State :=
  match classify n with
  | .marker => respond (encode (.getmod n)) (symbolWord .marker) s
  | .data =>
    match readFrame s with
    | none => raiseFault .unprepared (encode (.getmod n)) s
    | some f => respond (encode (.getmod n)) (symbolWord (bitSymbol (sliceBit f n))) s

/-- GET_MODULATION (R73). -/
def execGetmod (second : Nat) (s : State) : Host.Outcome State Fault Refusal :=
  ifAccepted s (getModulation second s)

end Sys2Proof.Machine
end

