-- ==== Sys2Proof/Machine/Dispatch.lean ====
section
/-! DEFINITION. The meaning of each command, one arm per constructor of Instr. -/

namespace Sys2Proof.Machine

def exec (i : Instr) (s : State) : Host.Outcome State Fault Refusal :=
  match i with
  | .prepare instant => Sys2Proof.Machine.execPrepare instant s
  | .getmod second => Sys2Proof.Machine.execGetmod second s

end Sys2Proof.Machine
end

