-- ==== Sys2Proof/Machine/CommandPort.lean ====
section
/-! DEFINITION. What the block does with the next host event (spec/10_state.md R27;
spec/60_exceptions.md R85, R86; spec/70_reset_and_hazards.md R97, R98, R106). -/

namespace Sys2Proof.Machine

/-- The effect of a word that is no command (R50, R83): `F_ILLEGAL`, its operand not read. -/
def illegalWord (w : CmdWord) (s : State) : Host.Outcome State Fault Refusal :=
  ifAccepted s (raiseFault .illegal w s)

/-- One command word offered on the port: decode, then the command or the illegal word (R86). -/
def takeCommand (w : CmdWord) (s : State) : Host.Outcome State Fault Refusal :=
  match decode w with
  | .instr i => exec i s
  | .illegal _ => illegalWord w s

/-- The next host event (R106): idle when there is none (R96), a reset (R97, R98), or a command word. -/
def takeEvent (s : State) : Host.Outcome State Fault Refusal :=
  match s.pending with
  | [] => .next s
  | .reset :: rest => .next (resetRegisters (withPending rest s))
  | .command w :: rest => takeCommand w (withPending rest s)

/-- The host offers one more word, ahead of everything it has still to send. -/
def offerNext (w : CmdWord) (s : State) : State := withPending (.command w :: s.pending) s

end Sys2Proof.Machine
end

