-- ==== Sys2Proof/Machine/Step.lean ====
section
/-! DEFINITION. One step of the machine: the next host event (spec/10_state.md R27, R28). -/

namespace Sys2Proof.Machine

/-- One step: the block takes the next host event. -/
def step (s : State) : Host.Outcome State Fault Refusal := takeEvent s

/-- `s` with the host offering the word `w` next (log entry 11: the block fetches nothing, so a program is
the sequence of words the host offers). -/
def State.withFetchWord (s : State) (nbits w : Nat) : State := offerNext (tableWord nbits w) s

end Sys2Proof.Machine
end

