-- ==== Sys2Proof/Machine/Assembler.lean ====
section
/-! DEFINITION. The assembler's text, its pseudo-instruction and the disassembler (spec/30_encoding.md R52 to
R55). Text is a list of characters. Details R52 leaves open are in log entry 10. -/

namespace Sys2Proof.Machine

/-- The value of a decimal digit. -/
def decDigit (c : Char) : Option Nat :=
  if '0'.toNat ≤ c.toNat ∧ c.toNat ≤ '9'.toNat then some (c.toNat - '0'.toNat) else none

/-- The value of a hex digit, of either case. -/
def hexDigit (c : Char) : Option Nat :=
  if '0'.toNat ≤ c.toNat ∧ c.toNat ≤ '9'.toNat then some (c.toNat - '0'.toNat)
  else if 'A'.toNat ≤ c.toNat ∧ c.toNat ≤ 'F'.toNat then some (c.toNat - 'A'.toNat + 10)
  else if 'a'.toNat ≤ c.toNat ∧ c.toNat ≤ 'f'.toNat then some (c.toNat - 'a'.toNat + 10)
  else none

/-- The value of a run of digits after the value `acc`; none at a character that is no digit. -/
def readDigits (base : Nat) (digit : Char → Option Nat) : Nat → List Char → Option Nat
  | acc, [] => some acc
  | acc, c :: cs =>
    match digit c with
    | none => none
    | some d => readDigits base digit (acc * base + d) cs

/-- An unsigned decimal integer: at least one digit (R52). -/
def readDecimal : List Char → Option Nat
  | [] => none
  | c :: cs => readDigits 10 decDigit 0 (c :: cs)

/-- A run of exactly `k` hex digits. -/
def readHexExactly (k : Nat) (cs : List Char) : Option Nat :=
  if cs.length = k then readDigits 16 hexDigit 0 cs else none

/-- A hex literal `0x...` of 1 to 16 hex digits (R52). -/
def readHexLiteral : List Char → Option Nat
  | '0' :: 'x' :: c :: cs => if cs.length ≤ 15 then readDigits 16 hexDigit 0 (c :: cs) else none
  | _ => none

/-- A signed decimal integer: an optional `-`, then a decimal integer (R52). -/
def readSigned : List Char → Option Int
  | '-' :: cs => (readDecimal cs).map fun n => -(n : Int)
  | cs => (readDecimal cs).map fun n => (n : Int)

/-- The instant of an ISO literal's fields (R53): `days_from_civil(Y, M, D)*86400 + h*3600 + mi*60 + s`, for a
year 0001 to 9999, a valid date and a time of day without second 60. -/
def isoInstant (y m d h mi s : Nat) : Option Int :=
  if 1 ≤ y ∧ y ≤ 9999 ∧ validDate y m d ∧ h ≤ 23 ∧ mi ≤ 59 ∧ s ≤ 59 then
    some (daysFromCivil y m d * 86400 + (h : Int) * 3600 + (mi : Int) * 60 + (s : Int))
  else none

/-- A field of exactly `k` decimal digits at the head of the text, then the character `close`. -/
def readField (k : Nat) (close : Char) (cs : List Char) : Option (Nat × List Char) :=
  match readDecimal (cs.take k), cs.drop k with
  | some n, c :: rest => if c = close ∧ (cs.take k).length = k then some (n, rest) else none
  | _, _ => none

/-- An ISO-8601 UTC literal `@YYYY-MM-DDThh:mm:ssZ` (R52, R53). -/
def readIso : List Char → Option Int
  | '@' :: cs => do
    let (y, cs) ← readField 4 '-' cs
    let (m, cs) ← readField 2 '-' cs
    let (d, cs) ← readField 2 'T' cs
    let (h, cs) ← readField 2 ':' cs
    let (mi, cs) ← readField 2 ':' cs
    let (s, cs) ← readField 2 'Z' cs
    if cs.isEmpty then isoInstant y m d h mi s else none
  | _ => none

/-- `<instant>` (R52): signed decimal, a hex two's complement pattern, or an ISO literal. -/
def readInstant (cs : List Char) : Option Int :=
  (readSigned cs).or (((readHexLiteral cs).map fun n => (BitVec.ofNat 64 n).toInt).or (readIso cs))

/-- `<second>` (R52): unsigned decimal or hex. -/
def readSecond (cs : List Char) : Option Nat := (readDecimal cs).or (readHexLiteral cs)

/-- The word of a command whose literal fits the operand; a literal that does not fit is an assembly error
(R52). -/
def fittingWord (i : Instr) : Option CmdWord := if i.wellFormed then some (encode i) else none

/-- The argument of `.word`, `0x<2 hex>_<16 hex>` (R52). -/
def readRawWord : List Char → Option CmdWord
  | '0' :: 'x' :: a :: b :: '_' :: ds => do
    let opc ← readHexExactly 2 [a, b]
    let operand ← readHexExactly 16 ds
    some (packCommand (BitVec.ofNat 8 opc) (BitVec.ofNat 64 operand))
  | _ => none

/-- The pseudo-instruction `minute <instant>`: `prepare <instant>`, then `getmod 0` to `getmod 59` (R54). -/
def minuteCommands (instant : Int) : List Instr :=
  .prepare instant :: (List.range 60).map .getmod

/-- A space that separates the tokens of a line. -/
def isBlank (c : Char) : Bool := c == ' ' || c == '\t'

/-- The tokens of a line; `cur` is the token being read, reversed. -/
def splitTokens (cur : List Char) : List Char → List (List Char)
  | [] => if cur.isEmpty then [] else [cur.reverse]
  | c :: cs =>
    if isBlank c then
      (if cur.isEmpty then splitTokens [] cs else cur.reverse :: splitTokens [] cs)
    else splitTokens (c :: cur) cs

/-- The lines of a text; `cur` is the line being read, reversed. -/
def splitLines (cur : List Char) : List Char → List (List Char)
  | [] => [cur.reverse]
  | c :: cs => if c = '\n' then cur.reverse :: splitLines [] cs else splitLines (c :: cur) cs

/-- The text of a line before its comment (R52). -/
def beforeComment (cs : List Char) : List Char := cs.takeWhile fun c => c != ';'

def prepareName : List Char := ['p', 'r', 'e', 'p', 'a', 'r', 'e']
def getmodName : List Char := ['g', 'e', 't', 'm', 'o', 'd']
def minuteName : List Char := ['m', 'i', 'n', 'u', 't', 'e']
def wordName : List Char := ['.', 'w', 'o', 'r', 'd']

/-- The words of one command line's two tokens (R52, R54). -/
def assembleCommand (name arg : List Char) : Option (List CmdWord) :=
  if name = prepareName then do [← fittingWord (.prepare (← readInstant arg))]
  else if name = getmodName then do [← fittingWord (.getmod (← readSecond arg))]
  else if name = wordName then do [← readRawWord arg]
  else if name = minuteName then do (minuteCommands (← readInstant arg)).mapM fittingWord
  else none

/-- The words of one line; none is an assembly error, and a blank line has no words (R52). -/
def assembleLine (cs : List Char) : Option (List CmdWord) :=
  match splitTokens [] (beforeComment cs) with
  | [] => some []
  | [name, arg] => assembleCommand name arg
  | _ => none

/-- The words of a text, one command per line (R52). -/
def assemble (text : List Char) : Option (List CmdWord) :=
  ((splitLines [] text).mapM assembleLine).map List.flatten

/-- The character of a hex digit, as the spec's words are written. -/
def hexChar (d : Nat) : Char := if d < 10 then Char.ofNat ('0'.toNat + d) else Char.ofNat ('A'.toNat + (d - 10))

/-- The lowest `k` hex digits of a number, highest first. -/
def printHex : Nat → Nat → List Char
  | 0, _ => []
  | k + 1, n => printHex k (n / 16) ++ [hexChar (n % 16)]

/-- A number in decimal, with at most `k` digits after the first. -/
def printDecimalFuel : Nat → Nat → List Char
  | 0, n => [hexChar (n % 10)]
  | k + 1, n => if n < 10 then [hexChar n] else printDecimalFuel k (n / 10) ++ [hexChar (n % 10)]

/-- A 64-bit number in decimal: at most 20 digits. -/
def printDecimal (n : Nat) : List Char := printDecimalFuel 19 n

/-- A signed 64-bit number in decimal. -/
def printSigned (t : Int) : List Char :=
  if t < 0 then '-' :: printDecimal t.natAbs else printDecimal t.natAbs

/-- The lowest `k` decimal digits of a number, highest first, with leading zeros. -/
def printFixed : Nat → Nat → List Char
  | 0, _ => []
  | k + 1, n => printFixed k (n / 10) ++ [hexChar (n % 10)]

/-- The text `@YYYY-MM-DDThh:mm:ssZ` of an ISO literal's six fields (R52, R53). -/
def isoText (y m d h mi s : Nat) : List Char :=
  '@' :: (printFixed 4 y ++ '-' :: (printFixed 2 m ++ '-' :: (printFixed 2 d ++ 'T' :: (printFixed 2 h
    ++ ':' :: (printFixed 2 mi ++ ':' :: (printFixed 2 s ++ ['Z']))))))

/-- Disassembly of one word (R55). -/
def disassemble (w : CmdWord) : List Char :=
  match decode w with
  | .instr (.prepare t) => prepareName ++ ' ' :: printSigned t
  | .instr (.getmod n) => getmodName ++ ' ' :: printDecimal n
  | .illegal opc =>
    wordName ++ ' ' :: '0' :: 'x' :: (printHex 2 opc.toNat ++ '_' :: printHex 16 (operandOf w).toNat)

end Sys2Proof.Machine
end

