-- ==== Sys2Proof/Safety.lean ====
section
/-! DEFINITION. The terms in which claims speak: the invariant of the registers, what a run's end and its
observation are (spec/70_reset_and_hazards.md R106, R107), how a receiver reads a frame (spec/10_state.md
R14), and the host's minute schedule (R101). -/

namespace Sys2Proof.Machine

/-- Offset k of a frame, in transmission order: `off(k) = FRAME[59-k]` (R10). -/
def offsetBit (f : Frame) (k : Nat) : Bool := f.getLsbD (59 - k)

/-- The sum of the weights whose offset holds a 1: how a receiver reads a field by R14's map. -/
def weightSum (f : Frame) : List (Nat × Nat) → Nat
  | [] => 0
  | (k, weight) :: rest => (if offsetBit f k then weight else 0) + weightSum f rest

/-- The weights of the minute field by offset (R14). -/
def minuteWeights : List (Nat × Nat) := [(1, 40), (2, 20), (3, 10), (5, 8), (6, 4), (7, 2), (8, 1)]

/-- The weights of the hour field by offset (R14). -/
def hourWeights : List (Nat × Nat) := [(12, 20), (13, 10), (15, 8), (16, 4), (17, 2), (18, 1)]

/-- The weights of the day-of-year field by offset (R14). -/
def ydayWeights : List (Nat × Nat) :=
  [(22, 200), (23, 100), (25, 80), (26, 40), (27, 20), (28, 10), (30, 8), (31, 4), (32, 2), (33, 1)]

/-- The weights of the year-of-century field by offset (R14). -/
def yocWeights : List (Nat × Nat) := [(45, 80), (46, 40), (47, 20), (48, 10), (50, 8), (51, 4), (52, 2), (53, 1)]

/-- The offsets that can hold a 1 in a frame the block writes (R70, R14 "variable"). -/
def variableOffsets : List Nat :=
  [1, 2, 3, 5, 6, 7, 8, 12, 13, 15, 16, 17, 18, 22, 23, 25, 26, 27, 28, 30, 31, 32, 33, 45, 46, 47, 48, 50, 51,
   52, 53, 55, 57, 58]

/-- The 26 bits that are 0 in every frame the block writes (R70; spec/95_test_vectors.md W8). -/
def alwaysZeroMask : Frame := 0x88721C843FF8429

/-- The calendar successor of a date: the next day of the month, else the first of the next month, else the
first of January (R12). -/
def nextDate (c : CivilDate) : CivilDate :=
  if c.day < daysInMonth c.year c.month then { c with day := c.day + 1 }
  else if c.month < 12 then { c with month := c.month + 1, day := 1 }
  else { year := c.year + 1, month := 1, day := 1 }

/-- The recorded fault and the recorded word fit the state (R17, R19, R83): no word without a fault, and the
word of each fault is one that raises it. `F_UNPREPARED` leaves the block unprepared (R78, R85). -/
def faultRecordOk (code : FaultCode) (cmd : Option CmdWord) (valid : Bool) : Prop :=
  match code, cmd with
  | .none, none => True
  | .illegal, some w => opcOf w ≠ opcPrepare ∧ opcOf w ≠ opcGetmod
  | .domain, some w => opcOf w = opcPrepare ∧ inDomain (operandOf w).toInt = false
  | .unprepared, some w => opcOf w = opcGetmod ∧ classify (operandOf w).toNat = .data ∧ valid = false
  | _, _ => False

/-- An answered word belongs to a GET_MODULATION, and is the marker exactly at a marker second, else one of
the two data words (R46, R49, R81). -/
def responseOk (r : Response) : Prop :=
  opcOf r.cmd = opcGetmod ∧
    match classify (operandOf r.cmd).toNat with
    | .marker => r.word = 0x006410000
    | .data => r.word = 0x003E90000 ∨ r.word = 0x001910000

/-- The invariant of the block: `FRAME_VALID = 1` exactly when `FRAME` holds a value (R17), a held frame has
its fixed bits 0 (R70), the fault record is one of R83's, and every answer is one of R49's. -/
structure State.Inv (s : State) : Prop where
  valid_iff : s.frameValid = true ↔ s.frame.isSome = true
  fixed_zero : ∀ f, s.frame = some f → f &&& alwaysZeroMask = 0
  fault_ok : faultRecordOk s.faultCode s.faultCmd s.frameValid
  responses_ok : ∀ r ∈ s.responses, responseOk r

/-- A run has ended normally: the host has no further event and no fault is recorded (R106). -/
def State.endedNormally (s : State) : Bool := s.pending.isEmpty && s.accepts

/-- What a claim may speak of (R107): the responses with their commands, and
`(FRAME, FRAME_VALID, FAULT_CODE)`. -/
def State.observation (s : State) : List Response × Option Frame × Bool × FaultCode :=
  (s.responses, s.frame, s.frameValid, s.faultCode)

/-- The entry GET_MODULATION of second n adds to the responses while frame f is held. -/
def responseTo (f : Frame) (n : Nat) : Response :=
  { cmd := encode (.getmod n), word := symbolWord (secondSymbol f n) }

/-- What a host does, with the minute each read is meant for (R100, R101). -/
inductive HostAct where
  /-- `prepare t`. -/
  | prepare (t : Int)
  /-- `getmod n`, a read that belongs to the minute M. -/
  | read (M : Int) (n : Nat)
  /-- A `RESET` event. -/
  | reset
  deriving DecidableEq, Repr

/-- The event a host's act puts on the ports. -/
def HostAct.event : HostAct → HostEvent
  | .prepare t => .command (encode (.prepare t))
  | .read _ n => .command (encode (.getmod n))
  | .reset => .reset

/-- The host keeps the minute schedule (R101) and the encoding duties (R44, R45, R57): it prepares instants of
the domain, and before the data-second reads of minute M the last instant prepared since reset lies in M.
`cur` is the minute prepared last. -/
def followsSchedule (cur : Option Int) : List HostAct → Bool
  | [] => true
  | .prepare t :: rest => inDomain t && followsSchedule (some (t / 60)) rest
  | .read M n :: rest =>
    (Instr.getmod n).wellFormed && (classify n == .marker || cur == some M) && followsSchedule cur rest
  | .reset :: rest => followsSchedule none rest

/-- The responses the host is owed: for each read of minute M, the word of its second in the frame of M. -/
def owedResponses (ts : TimeServices) : List HostAct → List Response
  | [] => []
  | .prepare _ :: rest => owedResponses ts rest
  | .read M n :: rest => responseTo (minuteFrame ts (60 * M)) n :: owedResponses ts rest
  | .reset :: rest => owedResponses ts rest

/-- The frame held is the one of the minute prepared last, if any (the premise under which a schedule may
begin). -/
def holdsMinute (ts : TimeServices) (cur : Option Int) (s : State) : Prop :=
  match cur with
  | none => True
  | some M => s.frameValid = true ∧ s.frame = some (minuteFrame ts (60 * M))

end Sys2Proof.Machine
end

