-- ==== Sys2Proof/Certificates/Slice0/Obligations.lean ====
section
/-! DEFINITION. The statements for the provers. Each docstring says which rule of spec/ it formalises; where a
clause rests on a choice of the model, it names the log entry. -/

open Sys2Proof Sys2Proof.Machine

/-! ## Command words and decoding -/

/-- spec/95_test_vectors.md V-ENC: words written out from the encoding decode to what they stand for. -/
def Obligations.VectorWordsDecode : Prop :=
  decode 0x010000000065ECFF08 = .instr (.prepare 1710030600)
    ∧ decode 0x01FFFFFFFFFFFFFFFF = .instr (.prepare (-1))
    ∧ decode 0x02000000000000003D = .instr (.getmod 61)
    ∧ decode 0x02FFFFFFFFFFFFFFFF = .instr (.getmod 18446744073709551615)
    ∧ decode 0x000000000000000000 = .illegal 0x00
    ∧ decode 0x030000000000000000 = .illegal 0x03

/-- R51: encode then decode is the identity on every command an operand field can hold. -/
def Obligations.DecodeOfEncodeIsIdentity : Prop :=
  ∀ i : Instr, i.wellFormed = true → decode (encode i) = .instr i

/-- R51: decode then encode is the identity on every legal word, and what is decoded is well formed. -/
def Obligations.EncodeOfDecodeIsIdentity : Prop :=
  ∀ (w : CmdWord) (i : Instr), decode w = .instr i → encode i = w ∧ i.wellFormed = true

/-- R43: the match and mask table selects the command, whose operand is the low 64 bits; a word that matches
neither row is illegal, named by `CMD[71:64]`. -/
def Obligations.MatchAndMaskSelectCommand : Prop :=
  ∀ w : CmdWord,
    (w &&& 0xFF0000000000000000 = 0x010000000000000000 →
        decode w = .instr (.prepare (w.setWidth 64).toInt))
    ∧ (w &&& 0xFF0000000000000000 = 0x020000000000000000 →
        decode w = .instr (.getmod (w.toNat % 2 ^ 64)))
    ∧ (w &&& 0xFF0000000000000000 ≠ 0x010000000000000000 →
        w &&& 0xFF0000000000000000 ≠ 0x020000000000000000 →
        decode w = .illegal ((w >>> 64).setWidth 8))

/-! ## The step -/

/-- R27, R86: when the next host event is a word that decodes to a command, a step is exactly that command's
`exec`. (That it runs at the state in which the event has been taken off the queue is the model's choice, log
entry 3.) -/
def Obligations.StepRunsDecodedInstruction : Prop :=
  ∀ (s : State) (w : CmdWord) (rest : List HostEvent) (i : Instr),
    s.pending = .command w :: rest → decode w = .instr i → step s = exec i { s with pending := rest }

/-- R50, R83, R84: an illegal word raises F_ILLEGAL, whatever its operand: only `FAULT_CODE` and `FAULT_CMD`
are written. (That the word leaves the queue is log entry 3.) -/
def Obligations.StepOnIllegalWordRaisesIllegal : Prop :=
  ∀ (s : State) (w : CmdWord) (rest : List HostEvent),
    s.pending = .command w :: rest → s.faultCode = .none → opcOf w ≠ 0x01 → opcOf w ≠ 0x02 →
    step s = .next { s with pending := rest, faultCode := .illegal, faultCmd := some w }

/-- R96: with no host event the block is idle and holds its registers (log entry 6: the step is a next state). -/
def Obligations.StepWithNoEventIsIdle : Prop :=
  ∀ s : State, s.pending = [] → step s = .next s

/-- R97: power-up and an event on `RESET` set every register to its reset value. -/
def Obligations.ResetSetsEveryRegister : Prop :=
  (State.reset.frame = none ∧ State.reset.frameValid = false ∧ State.reset.faultCode = .none
    ∧ State.reset.faultCmd = none)
  ∧ ∀ (s : State) (rest : List HostEvent), s.pending = .reset :: rest →
      ∃ t, step s = .next t ∧ t.frame = none ∧ t.frameValid = false ∧ t.faultCode = .none ∧ t.faultCmd = none

/-- Log entries 3 and 4 (the model's choice): a reset event takes only itself off the queue and keeps the
record of what was answered before (R98: a command accepted before the reset has its full effect). -/
def Obligations.ResetKeepsWhatCrossedThePorts : Prop :=
  ∀ (s : State) (rest : List HostEvent), s.pending = .reset :: rest →
    ∃ t, step s = .next t ∧ t.pending = rest ∧ t.responses = s.responses

/-- R82 (every input space has a defined total output) and log entries 5, 6, 7: a step always answers a next
state; the machine never stops with a fault or a refusal. -/
def Obligations.StepAlwaysAnswersNextState : Prop :=
  ∀ s : State, ∃ t, step s = .next t

/-! ## PREPARE_MINUTE -/

/-- R71: for every instant of the domain PREPARE_MINUTE completes and writes a frame: the frame R56 assembles
from the calendar fields, the leap-year unit and the two DST flags; and so for every `TS`. Nothing else
changes. -/
def Obligations.PrepareCompletesInDomain : Prop :=
  ∀ (t : Int) (s : State), -62135596800 ≤ t → t ≤ 253402300799 →
    (s.faultCode = .none →
      exec (.prepare t) s = .next { s with
        frame := some (assembleFrame (utcMinute t).toNat (utcHour t).toNat (utcYday t).toNat
          ((utcDate t).year % 100).toNat (leapYear (utcDate t).year)
          (Config.timeServices.localIsDst
            (Config.timeServices.localMidnight (utcDate t).year (utcDate t).month (utcDate t).day + 86400))
          (Config.timeServices.localIsDst
            (Config.timeServices.localMidnight (utcDate t).year (utcDate t).month (utcDate t).day)))
        frameValid := true })
    ∧ ∀ ts : TimeServices,
        prepareMinute ts t s = { s with frame := some (minuteFrame ts t), frameValid := true }

/-- R57: any other instant raises F_DOMAIN, whatever `TS` is; `FAULT_CMD` is the command word, and the frame
and `FRAME_VALID` stay (R84). -/
def Obligations.PrepareOutsideDomainRaisesDomain : Prop :=
  ∀ (t : Int) (s : State), t < -62135596800 ∨ 253402300799 < t →
    (s.faultCode = .none →
      exec (.prepare t) s = .next { s with faultCode := .domain, faultCmd := some (encode (.prepare t)) })
    ∧ ∀ ts : TimeServices,
        prepareMinute ts t s = { s with faultCode := .domain, faultCmd := some (encode (.prepare t)) }

/-- R37: PREPARE_MINUTE changes `FRAME` and `FRAME_VALID`, or on a fault only `FAULT_CODE` and `FAULT_CMD`; it
gives no response (R46) and leaves the rest of the queue. -/
def Obligations.PrepareChangesFrameOrFaultRecordOnly : Prop :=
  ∀ (t : Int) (s u : State), exec (.prepare t) s = .next u →
    u.pending = s.pending ∧ u.responses = s.responses
    ∧ ((u.faultCode = s.faultCode ∧ u.faultCmd = s.faultCmd) ∨ (u.frame = s.frame ∧ u.frameValid = s.frameValid))

/-- R72: the frame is a function of the UTC minute and `TS` alone, and only `FRAME[2:1]` depend on `TS`. -/
def Obligations.FrameDependsOnMinuteAndTimeServices : Prop :=
  (∀ (ts : TimeServices) (t t' : Int), t / 60 = t' / 60 → minuteFrame ts t = minuteFrame ts t')
  ∧ (∀ (ts ts' : TimeServices) (t : Int) (k : Nat), k ≠ 1 → k ≠ 2 →
      (minuteFrame ts t).getLsbD k = (minuteFrame ts' t).getLsbD k)
  ∧ (∀ (ts : TimeServices) (t : Int) (s s' : State), inDomain t = true →
      (prepareMinute ts t s).frame = (prepareMinute ts t s').frame)

/-- R37: two PREPARE_MINUTE commands with instants in the same UTC minute leave what the first one leaves. -/
def Obligations.PrepareIsIdempotentWithinMinute : Prop :=
  ∀ (t t' : Int) (s : State), s.faultCode = .none → inDomain t = true → t / 60 = t' / 60 →
    ∃ u, exec (.prepare t) s = .next u ∧ exec (.prepare t') u = .next u

/-- R66, R67: frame offset 58 is the DST flag at the local midnight of the UTC date, offset 57 the flag exactly
86400 s later, for every host. -/
def Obligations.DstBitsAreTheHostsFlags : Prop :=
  ∀ (ts : TimeServices) (t : Int), inDomain t = true →
    (minuteFrame ts t).getLsbD 1
        = ts.localIsDst (ts.localMidnight (utcDate t).year (utcDate t).month (utcDate t).day)
    ∧ (minuteFrame ts t).getLsbD 2
        = ts.localIsDst (ts.localMidnight (utcDate t).year (utcDate t).month (utcDate t).day + 86400)

/-- R14: a receiver that weighs the offsets as the bit map says reads back every field of the minute. -/
def Obligations.ReceiverReadsFieldsBack : Prop :=
  ∀ (ts : TimeServices) (t : Int), inDomain t = true →
    (weightSum (minuteFrame ts t) minuteWeights : Int) = utcMinute t
    ∧ (weightSum (minuteFrame ts t) hourWeights : Int) = utcHour t
    ∧ (weightSum (minuteFrame ts t) ydayWeights : Int) = utcYday t
    ∧ (weightSum (minuteFrame ts t) yocWeights : Int) = (utcDate t).year % 100
    ∧ offsetBit (minuteFrame ts t) 55 = leapYear (utcDate t).year

/-- R70: the bits that can be 1 are exactly the 34 listed; the other 26 are 0 in every frame the block writes. -/
def Obligations.FrameBitsThatCanBeSet : Prop :=
  ∀ k : Nat, k < 60 →
    ((∃ (ts : TimeServices) (t : Int), inDomain t = true ∧ offsetBit (minuteFrame ts t) k = true)
      ↔ k ∈ variableOffsets)

/-- R70: the terms the assembler joins occupy disjoint bits, for every instant of the domain. -/
def Obligations.AssemblerTermsAreDisjoint : Prop :=
  ∀ (ts : TimeServices) (t : Int), inDomain t = true →
    ([paddedBcd (utcMinute t).toNat <<< 51, paddedBcd (utcHour t).toNat <<< 41, paddedBcd (utcYday t).toNat <<< 26,
        paddedBcd (yearOfCentury (utcDate t).year).toNat <<< 6, (leapYear (utcDate t).year).toNat <<< 4,
        (dstNext ts t).toNat <<< 2, (dstNow ts t).toNat <<< 1] : List Nat).Pairwise (fun a b => a &&& b = 0)

/-! ## The sub-blocks of the frame encoder -/

/-- R62: digits in 5-bit lanes; bits 3..0 ones, 8..5 tens, 13..10 hundreds; bits 4 and 9 always 0; 14 bits. -/
def Obligations.PaddedBcdPlacesDigits : Prop :=
  ∀ n : Nat, n ≤ 999 →
    paddedBcd n % 16 = n % 10 ∧ paddedBcd n / 32 % 16 = n / 10 % 10 ∧ paddedBcd n / 1024 % 16 = n / 100 % 10
    ∧ (paddedBcd n).testBit 4 = false ∧ (paddedBcd n).testBit 9 = false ∧ paddedBcd n < 2 ^ 14

/-- R63: encode then decode gives the number back, and each field reaches only its width. -/
def Obligations.PaddedBcdRoundTripsWithinWidths : Prop :=
  (∀ n : Nat, n ≤ 999 →
    100 * (paddedBcd n / 1024 % 16) + 10 * (paddedBcd n / 32 % 16) + paddedBcd n % 16 = n)
  ∧ (∀ n : Nat, n ≤ 59 → paddedBcd n ≤ 0xA9) ∧ (∀ n : Nat, n ≤ 23 → paddedBcd n ≤ 0x43)
  ∧ (∀ n : Nat, n ≤ 366 → paddedBcd n ≤ 0xCC6) ∧ (∀ n : Nat, n ≤ 99 → paddedBcd n ≤ 0x129)

/-- R64: the leap-year rule on the full civil year, with the source's examples. -/
def Obligations.LeapYearRule : Prop :=
  (∀ y : Int, leapYear y = true ↔ (4 ∣ y ∧ (¬ 100 ∣ y ∨ 400 ∣ y)))
  ∧ leapYear 2000 = true ∧ leapYear 2024 = true ∧ leapYear 1900 = false ∧ leapYear 2023 = false
  ∧ leapYear 2021 = false

/-- R59 and R64 agree: a year has 366 days exactly when it is a leap year, else 365. -/
def Obligations.YearLengthMatchesLeapRule : Prop :=
  ∀ y : Int, daysFromCivil (y + 1) 1 1 - daysFromCivil y 1 1 = if leapYear y then 366 else 365

/-- R60: `civil_from_days` gives, for every integer, the one valid date whose day number it is. -/
def Obligations.CivilFromDaysIsUniqueInverse : Prop :=
  (∀ z : Int, validDate (civilFromDays z).year (civilFromDays z).month (civilFromDays z).day = true
    ∧ daysFromCivil (civilFromDays z).year (civilFromDays z).month (civilFromDays z).day = z)
  ∧ (∀ y m d : Int, validDate y m d = true →
      civilFromDays (daysFromCivil y m d) = { year := y, month := m, day := d })

/-- R12, R58: the closed form is the proleptic Gregorian calendar: day 0 is 1970-01-01 and each further day is
the calendar successor of the one before. -/
def Obligations.DayNumbersFollowTheCalendar : Prop :=
  civilFromDays 0 = { year := 1970, month := 1, day := 1 }
  ∧ ∀ z : Int, civilFromDays (z + 1) = nextDate (civilFromDays z)

/-- R61: the ranges of the calendar fields of every instant of the domain; yday is 366 exactly on 31 December
of a leap year. -/
def Obligations.CalendarFieldRanges : Prop :=
  ∀ t : Int, inDomain t = true →
    1 ≤ (utcDate t).year ∧ (utcDate t).year ≤ 9999 ∧ 1 ≤ (utcDate t).month ∧ (utcDate t).month ≤ 12
    ∧ 1 ≤ (utcDate t).day ∧ (utcDate t).day ≤ 31 ∧ 0 ≤ utcHour t ∧ utcHour t ≤ 23
    ∧ 0 ≤ utcMinute t ∧ utcMinute t ≤ 59 ∧ 0 ≤ yearOfCentury (utcDate t).year
    ∧ yearOfCentury (utcDate t).year ≤ 99
    ∧ 1 ≤ utcYday t ∧ utcYday t ≤ (if leapYear (utcDate t).year then 366 else 365)
    ∧ (utcYday t = 366 ↔
        leapYear (utcDate t).year = true ∧ (utcDate t).month = 12 ∧ (utcDate t).day = 31)

/-- R58: the fields are those of the instant: date, hour, minute and the unused second of the minute give it
back, for negative instants too. -/
def Obligations.UtcFieldsRebuildInstant : Prop :=
  ∀ t : Int,
    t = daysFromCivil (utcDate t).year (utcDate t).month (utcDate t).day * 86400 + utcHour t * 3600
          + utcMinute t * 60 + t % 60
    ∧ 0 ≤ utcHour t ∧ utcHour t ≤ 23 ∧ 0 ≤ utcMinute t ∧ utcMinute t ≤ 59
    ∧ utcYday t = dayNumber t - daysFromCivil (utcDate t).year 1 1 + 1

/-! ## GET_MODULATION -/

/-- R73: a marker second answers the marker word, before any PREPARE_MINUTE too; no register is written. -/
def Obligations.GetmodAnswersMarker : Prop :=
  ∀ (n : Nat) (s : State), s.faultCode = .none → n = 0 ∨ n % 10 = 9 ∨ 59 < n →
    exec (.getmod n) s
      = .next { s with responses := s.responses ++ [{ cmd := encode (.getmod n), word := 0x006410000 }] }

/-- R73: a data second of a prepared frame answers the word of its bit `FRAME[59-s]`; no register is written. -/
def Obligations.GetmodAnswersDataBit : Prop :=
  ∀ (n : Nat) (f : Frame) (s : State), s.faultCode = .none → s.frameValid = true → s.frame = some f →
    1 ≤ n → n ≤ 58 → n % 10 ≠ 9 →
    exec (.getmod n) s
      = .next { s with responses := s.responses ++
          [{ cmd := encode (.getmod n)
             word := if f.getLsbD (59 - n) then 0x003E90000 else 0x001910000 }] }

/-- R78: a data second while `FRAME_VALID = 0` raises F_UNPREPARED; no response, `FRAME` and `FRAME_VALID`
unchanged. A marker second answers the marker even then. -/
def Obligations.GetmodUnpreparedRaisesFault : Prop :=
  ∀ (n : Nat) (s : State), s.faultCode = .none → s.frameValid = false →
    (1 ≤ n → n ≤ 58 → n % 10 ≠ 9 →
      exec (.getmod n) s
        = .next { s with faultCode := .unprepared, faultCmd := some (encode (.getmod n)) })
    ∧ (n = 0 ∨ n % 10 = 9 ∨ 59 < n →
      ∃ u r, exec (.getmod n) s = .next u ∧ u.faultCode = .none ∧ u.responses = s.responses ++ [r]
        ∧ r.word = 0x006410000)

/-- R37, R79: GET_MODULATION never writes `FRAME` or `FRAME_VALID` and leaves the rest of the queue; unless it
faults it writes no register, and when it faults it answers nothing. -/
def Obligations.GetmodWritesNoRegister : Prop :=
  ∀ (n : Nat) (s u : State), exec (.getmod n) s = .next u →
    u.frame = s.frame ∧ u.frameValid = s.frameValid ∧ u.pending = s.pending
    ∧ (u.faultCode = .none → u.faultCode = s.faultCode ∧ u.faultCmd = s.faultCmd)
    ∧ (u.faultCode ≠ .none → u.responses = s.responses)

/-- R74: the classifier; in 0..59 the markers are 0, 9, 19, 29, 39, 49 and 59, and 53 seconds are data. -/
def Obligations.SecondClassifierRule : Prop :=
  (∀ n : Nat, classify n = .marker ↔ (n = 0 ∨ n % 10 = 9 ∨ 59 < n))
  ∧ (List.range 60).filter (fun n => classify n == .marker) = [0, 9, 19, 29, 39, 49, 59]
  ∧ ((List.range 60).filter (fun n => classify n == .data)).length = 53

/-- R75: the slicer reads `FRAME[59-s]`, an index in 1..58 for every data second. -/
def Obligations.BitSlicerStaysInsideTheFrame : Prop :=
  ∀ (f : Frame) (n : Nat), classify n = .data →
    n ≤ 58 ∧ 1 ≤ 59 - n ∧ 59 - n ≤ 58 ∧ sliceBit f n = (f >>> (59 - n)).getLsbD 0

/-- R76: the three schedules and when each is used. -/
def Obligations.AmplitudeScheduleTable : Prop :=
  amplitudeSchedule .marker = ⟨⟨.low, 800⟩, ⟨.high, 0⟩⟩
  ∧ amplitudeSchedule .one = ⟨⟨.low, 500⟩, ⟨.high, 0⟩⟩
  ∧ amplitudeSchedule .zero = ⟨⟨.low, 200⟩, ⟨.high, 0⟩⟩
  ∧ (∀ (f : Frame) (n : Nat), classify n = .marker → secondSymbol f n = .marker)
  ∧ (∀ (f : Frame) (n : Nat), classify n = .data → f.getLsbD (59 - n) = true → secondSymbol f n = .one)
  ∧ (∀ (f : Frame) (n : Nat), classify n = .data → f.getLsbD (59 - n) = false → secondSymbol f n = .zero)

/-- R46 to R48: the response word holds the two segments, level and duration, without loss. -/
def Obligations.ResponseWordHoldsSchedule : Prop :=
  (∀ m : SecondModulation, decodeResponse (encodeResponse m) = m)
  ∧ (∀ w : RspWord, encodeResponse (decodeResponse w) = w)
  ∧ (∀ m : SecondModulation, (encodeResponse m).toNat
      = m.seg0.level.bit.toNat * 2 ^ 33 + m.seg0.duration.toNat * 2 ^ 17 + m.seg1.level.bit.toNat * 2 ^ 16
          + m.seg1.duration.toNat)

/-- R49: the three response words. -/
def Obligations.ThreeResponseWords : Prop :=
  symbolWord .marker = 0x006410000 ∧ symbolWord .one = 0x003E90000 ∧ symbolWord .zero = 0x001910000

/-- R77: what an answered schedule means: LOW before its time, HIGH from there to the end of the second, so the
LOW part lasts 800, 500 or 200 of the 1000 ms. (That the level is not LOW at τ = 1000 and later, where R77 gives
none, is the model's choice, log entry 15.) -/
def Obligations.ScheduleCoversTheSecond : Prop :=
  ∀ y : Symbol,
    (∀ τ : Nat, (amplitudeSchedule y).levelAt τ = .low ↔ τ < (lowTime y).toNat)
    ∧ ((List.range 1000).filter (fun τ => (amplitudeSchedule y).levelAt τ == .low)).length
        = (match y with | .marker => 800 | .one => 500 | .zero => 200)

/-- R80: the 60 answers of a minute determine every bit of a frame the block writes. -/
def Obligations.MinuteOfAnswersDeterminesFrame : Prop :=
  ∀ f g : Frame, f &&& alwaysZeroMask = 0 → g &&& alwaysZeroMask = 0 →
    (∀ n : Nat, n < 60 → (responseTo f n).word = (responseTo g n).word) → f = g

/-- R81: with a prepared frame GET_MODULATION answers, and its answer is the marker exactly at a marker second;
at a data second it is the word of 1 exactly when the frame bit is 1. -/
def Obligations.MarkerOnlyAtMarkerSeconds : Prop :=
  ∀ (n : Nat) (f : Frame) (s : State), s.faultCode = .none → s.frameValid = true → s.frame = some f →
    ∃ (u : State) (r : Response), exec (.getmod n) s = .next u ∧ u.responses = s.responses ++ [r]
      ∧ r.cmd = encode (.getmod n)
      ∧ (r.word = 0x006410000 ↔ (n = 0 ∨ n % 10 = 9 ∨ 59 < n))
      ∧ (r.word = 0x003E90000 ↔ (¬(n = 0 ∨ n % 10 = 9 ∨ 59 < n) ∧ f.getLsbD (59 - n) = true))

/-- R79, R94: two reads of a prepared frame commute: each is answered the same in either order, and the
registers end the same. -/
def Obligations.ReadsCommute : Prop :=
  ∀ (a b : Nat) (f : Frame) (s : State), s.faultCode = .none → s.frameValid = true → s.frame = some f →
    ∃ (sa sb sab sba : State) (ra rb : Response),
      exec (.getmod a) s = .next sa ∧ exec (.getmod b) sa = .next sab
      ∧ exec (.getmod b) s = .next sb ∧ exec (.getmod a) sb = .next sba
      ∧ sab = { s with responses := s.responses ++ [ra, rb] }
      ∧ sba = { s with responses := s.responses ++ [rb, ra] }

/-- R38, R103: the frame written by a PREPARE_MINUTE is read by the very next command. -/
def Obligations.ReadSeesThePreparedFrame : Prop :=
  ∀ (t : Int) (n : Nat) (s : State), s.faultCode = .none → inDomain t = true →
    ∃ u v, exec (.prepare t) s = .next u ∧ exec (.getmod n) u = .next v
      ∧ v.responses = s.responses ++ [responseTo (minuteFrame Config.timeServices t) n]

/-! ## Faults, registers and the whole machine -/

/-- R83 with R86: from a state with no fault recorded, an accepted word ends in each fault exactly on that
fault's cause; the codes are 0 to 3. -/
def Obligations.FaultCodesAndCauses : Prop :=
  (FaultCode.bits .none = 0 ∧ FaultCode.bits .illegal = 1 ∧ FaultCode.bits .domain = 2
    ∧ FaultCode.bits .unprepared = 3)
  ∧ ∀ (s : State) (w : CmdWord) (rest : List HostEvent), s.Inv → s.faultCode = .none →
      s.pending = .command w :: rest →
      ∃ u, step s = .next u
        ∧ (u.faultCode = .illegal ↔ (opcOf w ≠ 0x01 ∧ opcOf w ≠ 0x02))
        ∧ (u.faultCode = .domain ↔
            (opcOf w = 0x01 ∧ ((operandOf w).toInt < -62135596800 ∨ 253402300799 < (operandOf w).toInt)))
        ∧ (u.faultCode = .unprepared ↔
            (opcOf w = 0x02 ∧ classify (operandOf w).toNat = .data ∧ s.frameValid = false))
        ∧ (u.faultCode ≠ .none → u.faultCmd = some w)

/-- R84: fault entry writes `FAULT_CODE` and `FAULT_CMD` and nothing else; the faulting word has no partial
effect and no response. (That the word leaves the queue is log entry 3.) -/
def Obligations.FaultEntryIsPrecise : Prop :=
  ∀ (s u : State) (w : CmdWord) (rest : List HostEvent), s.faultCode = .none →
    s.pending = .command w :: rest → step s = .next u → u.faultCode ≠ .none →
    u = { s with pending := rest, faultCode := u.faultCode, faultCmd := some w }

/-- R85 and log entry 5: while a fault is recorded, an offered word is left unaccepted and changes no register
and gives no response; the host's next event follows. -/
def Obligations.HaltedBlockAcceptsNoWord : Prop :=
  (∀ (s : State) (w : CmdWord) (rest : List HostEvent), s.faultCode ≠ .none →
    s.pending = .command w :: rest → step s = .next { s with pending := rest })
  ∧ ∀ (s : State) (i : Instr), s.faultCode ≠ .none → exec i s = .next s

/-- R18, R87: a recorded fault stays, with its word, until a reset. -/
def Obligations.FaultRecordStaysUntilReset : Prop :=
  ∀ s u : State, step s = .next u → s.faultCode ≠ .none →
    (u.faultCode = s.faultCode ∧ u.faultCmd = s.faultCmd ∧ u.frame = s.frame ∧ u.frameValid = s.frameValid
      ∧ u.responses = s.responses)
    ∨ ∃ rest, s.pending = .reset :: rest

/-- R15: only PREPARE_MINUTE (with an instant of the domain, accepted) writes the frame; else a reset has
discarded it. -/
def Obligations.OnlyPrepareOrResetChangesFrame : Prop :=
  ∀ s u : State, step s = .next u → u.frame ≠ s.frame →
    (∃ rest, s.pending = .reset :: rest)
    ∨ ∃ w rest, s.pending = .command w :: rest ∧ s.faultCode = .none ∧ opcOf w = 0x01
        ∧ inDomain (operandOf w).toInt = true
        ∧ u.frame = some (minuteFrame Config.timeServices (operandOf w).toInt)

/-- R17: `FRAME_VALID` is 0 after reset, is set by a PREPARE_MINUTE that completes in the update that writes the
frame, and is cleared by nothing but a reset. (Its invariant is `StepKeepsInvariant`.) -/
def Obligations.FrameValidSetByPrepareClearedByReset : Prop :=
  State.reset.frameValid = false
  ∧ (∀ (t : Int) (s : State), s.faultCode = .none → inDomain t = true →
      ∃ u, exec (.prepare t) s = .next u ∧ u.frameValid = true ∧ u.frame.isSome = true)
  ∧ (∀ s u : State, step s = .next u → s.frameValid = true → u.frameValid = false →
      ∃ rest, s.pending = .reset :: rest)
  ∧ (∀ s u : State, step s = .next u → s.frameValid = false → u.frameValid = true →
      ∃ w rest, s.pending = .command w :: rest ∧ opcOf w = 0x01 ∧ u.frame.isSome = true)

/-- R23: `STATUS` carries the values of `FRAME_VALID` (1 bit: 1 exactly when a frame is valid) and of `FAULT_CODE`
(2 bits: 0 NONE, 1 F_ILLEGAL, 2 F_DOMAIN, 3 F_UNPREPARED, the codes of R18). -/
def Obligations.StatusShowsTheStatusRegisters : Prop :=
  ∀ s : State,
    (s.status.1 = 1 ↔ s.frameValid = true) ∧ (s.status.1 = 0 ↔ s.frameValid = false)
    ∧ (s.status.2 = 0 ↔ s.faultCode = .none) ∧ (s.status.2 = 1 ↔ s.faultCode = .illegal)
    ∧ (s.status.2 = 2 ↔ s.faultCode = .domain) ∧ (s.status.2 = 3 ↔ s.faultCode = .unprepared)

/-- The invariant holds right after reset (R97). -/
def Obligations.ResetMeetsInvariant : Prop := State.reset.Inv

/-- R17, R19, R49, R70, R81, R83: every step keeps the invariant of the registers and of the answers, from
every state that meets it. -/
def Obligations.StepKeepsInvariant : Prop :=
  ∀ s u : State, s.Inv → step s = .next u → u.Inv

/-! ## Runs of host events -/

/-- R85, R106: after a fault no word the host offers is accepted, however many: the registers and the answers
stay as the first fault left them (log entry 5). -/
def Obligations.HaltedRunAcceptsNothing : Prop :=
  ∀ (ws : List CmdWord) (rest : List HostEvent) (s : State), s.faultCode ≠ .none →
    s.pending = ws.map HostEvent.command ++ rest →
    Host.Core.run core ws.length s = .next { s with pending := rest }

/-- R79, R94: any number of reads, in any order, of one prepared frame: each is answered from that frame, in
acceptance order, and no register changes. (That the reads, and only they, leave the queue is the model's choice,
log entry 3; the record of the answers is its own field, log entry 4.) -/
def Obligations.ReadsAreAnsweredInAcceptanceOrder : Prop :=
  ∀ (ns : List Nat) (f : Frame) (rest : List HostEvent) (s : State),
    (∀ n ∈ ns, (Instr.getmod n).wellFormed = true) →
    s.faultCode = .none → s.frameValid = true → s.frame = some f →
    s.pending = ns.map (fun n => HostEvent.command (encode (.getmod n))) ++ rest →
    Host.Core.run core ns.length s
      = .next { s with pending := rest, responses := s.responses ++ ns.map (responseTo f) }

/-- R16, R38, R72, R97, R101: a host that keeps the minute schedule, through any number of minutes and resets,
is answered, read by read, from the frame of the minute each read is meant for, and meets no fault. (The model's
choices in it: the queue of events, log entry 3; that answers are recorded and survive a reset, log entry 4; the
schedule as the predicate `followsSchedule`, log entry 14.) -/
def Obligations.ScheduledHostIsAnsweredFromItsMinutes : Prop :=
  ∀ (acts : List HostAct) (cur : Option Int) (rest : List HostEvent) (s : State),
    followsSchedule cur acts = true → s.faultCode = .none → holdsMinute Config.timeServices cur s →
    s.pending = acts.map HostAct.event ++ rest →
    ∃ u, Host.Core.run core acts.length s = .next u ∧ u.pending = rest ∧ u.faultCode = .none
      ∧ u.responses = s.responses ++ owedResponses Config.timeServices acts

/-! ## Assembler and host mapping -/

/-- R55: disassembly then assembly gives back the same word, legal or illegal. -/
def Obligations.AssembleOfDisassembleIsIdentity : Prop :=
  ∀ w : CmdWord, assembleLine (disassemble w) = some [w]

/-- R53: six fields of an ISO literal have an instant exactly when the year, the date and the time of day are
valid, and then it is the instant of the domain with those fields. (The literal's text is
`IsoLiteralTextAssembles`.) -/
def Obligations.IsoLiteralNamesItsInstant : Prop :=
  ∀ y m d h mi sec : Nat,
    (isoInstant y m d h mi sec = none ↔
      ¬(1 ≤ y ∧ y ≤ 9999 ∧ validDate y m d = true ∧ h ≤ 23 ∧ mi ≤ 59 ∧ sec ≤ 59))
    ∧ ∀ t, isoInstant y m d h mi sec = some t →
        t = daysFromCivil y m d * 86400 + (h : Int) * 3600 + (mi : Int) * 60 + (sec : Int)
        ∧ inDomain t = true ∧ utcDate t = { year := y, month := m, day := d } ∧ utcHour t = h ∧ utcMinute t = mi
        ∧ t % 60 = sec

/-- R52, R53: the text `@YYYY-MM-DDThh:mm:ssZ` of six fields is read as their instant, and `prepare` of that text
assembles to its word or, where the fields have no instant, to an error; no other text is read as an ISO literal
(the exact number of digits is log entry 10); with the example of R53. -/
def Obligations.IsoLiteralTextAssembles : Prop :=
  (∀ y m d h mi sec : Nat, y ≤ 9999 → m ≤ 99 → d ≤ 99 → h ≤ 99 → mi ≤ 99 → sec ≤ 99 →
    readIso (isoText y m d h mi sec) = isoInstant y m d h mi sec
    ∧ assembleLine (prepareName ++ ' ' :: isoText y m d h mi sec)
        = (isoInstant y m d h mi sec).map (fun t => [encode (.prepare t)]))
  ∧ (∀ (cs : List Char) (t : Int), readIso cs = some t →
      ∃ y m d h mi sec : Nat, cs = isoText y m d h mi sec ∧ isoInstant y m d h mi sec = some t)
  ∧ assembleLine ['p', 'r', 'e', 'p', 'a', 'r', 'e', ' ', '@', '2', '0', '2', '4', '-', '0', '3', '-', '1', '0', 'T',
      '0', '0', ':', '3', '0', ':', '0', '0', 'Z'] = some [0x010000000065ECFF08]

/-- R54: `minute <instant>` is 61 commands: `prepare <instant>`, then `getmod 0` to `getmod 59` in that order. -/
def Obligations.MinuteExpandsToSixtyOneCommands : Prop :=
  ∀ t : Int, (minuteCommands t).length = 61 ∧ (minuteCommands t)[0]? = some (.prepare t)
    ∧ ∀ n : Nat, n < 60 → (minuteCommands t)[n + 1]? = some (.getmod n)

/-- R45, R100: a signed second index has a command exactly when it is non-negative and fits the operand, and
then the command of that index. -/
def Obligations.NegativeSecondHasNoCommand : Prop :=
  ∀ i : Int,
    (i < 0 → hostSecond i = none)
    ∧ (∀ c : Instr, hostSecond i = some c → c.wellFormed = true ∧ c = .getmod i.toNat ∧ (i.toNat : Int) = i)
    ∧ (0 ≤ i → i < 2 ^ 64 → hostSecond i = some (.getmod i.toNat))
end

