-- ==== Sys2Proof/Laws/Assembler.lean ====
section
/-! SUPPORT. Decimal digits: what is printed is read back, and only printed digits are read
(spec/30_encoding.md R52, R53, R55). -/

namespace Sys2Proof.Machine

theorem decDigit_hexChar {d : Nat} (h : d < 10) : decDigit (hexChar d) = some d := by
  have all : ∀ d < 10, decDigit (hexChar d) = some d := by decide
  exact all d h

/-- A character read as a decimal digit is the one printed for it. -/
theorem eq_hexChar_of_decDigit {c : Char} {d : Nat} (h : decDigit c = some d) : d < 10 ∧ c = hexChar d := by
  have h0 : '0'.toNat = 48 := by decide
  have h9 : '9'.toNat = 57 := by decide
  unfold decDigit at h
  rw [h0, h9] at h
  split at h
  · cases h
    refine ⟨by omega, ?_⟩
    rw [hexChar, if_pos (by omega), h0, show 48 + (c.toNat - 48) = c.toNat by omega, Char.ofNat_toNat]
  · cases h

theorem printFixed_two (n : Nat) : printFixed 2 n = [hexChar (n / 10 % 10), hexChar (n % 10)] := rfl

theorem printFixed_four (n : Nat) :
    printFixed 4 n
      = [hexChar (n / 10 / 10 / 10 % 10), hexChar (n / 10 / 10 % 10), hexChar (n / 10 % 10), hexChar (n % 10)] := rfl

/-- A two-digit field is read back. -/
theorem readField_printFixed_two {n : Nat} (h : n ≤ 99) (c : Char) (rest : List Char) :
    readField 2 c (printFixed 2 n ++ c :: rest) = some (n, rest) := by
  rw [printFixed_two]
  simp only [readField, List.cons_append, List.nil_append, List.take, List.drop, readDecimal, readDigits,
    decDigit_hexChar (Nat.mod_lt _ (show 10 > 0 by decide))]
  simp
  omega

/-- A four-digit field is read back. -/
theorem readField_printFixed_four {n : Nat} (h : n ≤ 9999) (c : Char) (rest : List Char) :
    readField 4 c (printFixed 4 n ++ c :: rest) = some (n, rest) := by
  rw [printFixed_four]
  simp only [readField, List.cons_append, List.nil_append, List.take, List.drop, readDecimal, readDigits,
    decDigit_hexChar (Nat.mod_lt _ (show 10 > 0 by decide))]
  simp
  omega

end Sys2Proof.Machine
end

