-- ==== Sys2Proof/Laws/Calendar.lean ====
section
/-! SUPPORT. The calendar arithmetic taken apart once: a day of a 400-year era as century, four-year cycle, year
and day (spec/41_frame_encoder.md R59, R60), so that later proofs meet only small linear facts. -/

namespace Sys2Proof.Machine

/-- R57's domain as two inequalities. -/
theorem inDomain_iff (t : Int) : inDomain t = true ↔ -62135596800 ≤ t ∧ t ≤ 253402300799 := by
  simp only [inDomain, Bool.and_eq_true, decide_eq_true_eq]
  simp only [Config.tMin, Config.tMax]

theorem leapYear_iff (y : Int) : leapYear y = true ↔ y % 4 = 0 ∧ (y % 100 ≠ 0 ∨ y % 400 = 0) := by
  simp [leapYear]

theorem validDate_iff (y m d : Int) : validDate y m d = true ↔ 1 ≤ m ∧ m ≤ 12 ∧ 1 ≤ d ∧ d ≤ daysInMonth y m := by
  simp [validDate, and_assoc]

/-- A day of the era is 36524 c + 1461 q + 365 r + k: century c, four-year cycle q, year r, day k counted from
1 March; k = 365 only in a year that ends with 29 February. -/
theorem era_day_parts (doe : Int) (h0 : 0 ≤ doe) (h1 : doe ≤ 146096) :
    ∃ c q r k : Int, (0 ≤ c ∧ c ≤ 3) ∧ (0 ≤ q ∧ q ≤ 24) ∧ (0 ≤ r ∧ r ≤ 3) ∧ (0 ≤ k ∧ k ≤ 365) ∧
      (k = 365 → r = 3 ∧ (q < 24 ∨ c = 3)) ∧ doe = 36524 * c + 1461 * q + 365 * r + k := by
  by_cases hc : doe / 36524 = 4
  · exact ⟨3, 24, 3, 365, by omega⟩
  · obtain ⟨c, hc'⟩ : ∃ c, c = doe / 36524 := ⟨_, rfl⟩
    obtain ⟨n, hn⟩ : ∃ n, n = doe - 36524 * c := ⟨_, rfl⟩
    obtain ⟨q, hq⟩ : ∃ q, q = n / 1461 := ⟨_, rfl⟩
    obtain ⟨n2, hn2⟩ : ∃ n2, n2 = n - 1461 * q := ⟨_, rfl⟩
    by_cases hr : n2 = 1460
    · exact ⟨c, q, 3, 365, by omega⟩
    · exact ⟨c, q, n2 / 365, n2 % 365, by omega⟩

/-- R60's `yoe` of a day given by its parts. -/
theorem yoe_of_parts (c q r k : Int) (hc : 0 ≤ c ∧ c ≤ 3) (hq : 0 ≤ q ∧ q ≤ 24) (hr : 0 ≤ r ∧ r ≤ 3)
    (hk : 0 ≤ k ∧ k ≤ 365) (h : k = 365 → r = 3 ∧ (q < 24 ∨ c = 3)) (doe : Int)
    (hd : doe = 36524 * c + 1461 * q + 365 * r + k) :
    (doe - doe / 1460 + doe / 36524 - doe / 146096) / 365 = 100 * c + 4 * q + r := by
  obtain ⟨e, he⟩ : ∃ e, e = doe / 1460 := ⟨_, rfl⟩
  obtain ⟨a, ha⟩ : ∃ a, a = doe / 36524 := ⟨_, rfl⟩
  obtain ⟨g, hg⟩ : ∃ g, g = doe / 146096 := ⟨_, rfl⟩
  rw [← he, ← ha, ← hg]
  have he' : e = 25 * c + q ∨ e = 25 * c + q + 1 := by omega
  have hag : a - g = c := by
    obtain ⟨h1, h2⟩ := hc
    by_cases h9 : doe = 146096
    · omega
    · have : g = 0 := by omega
      interval_cases c <;> omega
  have : e = 25 * c + q + 1 → k ≥ 1 := by omega
  have : k = 365 → e = 25 * c + q + 1 := by omega
  omega

/-- The days of the era before a year given by its parts. -/
theorem era_days_of_parts (c q r : Int) (hq : 0 ≤ q ∧ q ≤ 24) (hr : 0 ≤ r ∧ r ≤ 3) :
    365 * (100 * c + 4 * q + r) + (100 * c + 4 * q + r) / 4 - (100 * c + 4 * q + r) / 100
      = 36524 * c + 1461 * q + 365 * r := by
  have h1 : (100 * c + 4 * q + r) / 4 = 25 * c + q := by omega
  have h2 : (100 * c + 4 * q + r) / 100 = c := by omega
  rw [h1, h2]
  ring

/-- `civil_from_days` (R60) of a day given by its parts. -/
theorem civilFromDays_of_parts (z era c q r k : Int) (hc : 0 ≤ c ∧ c ≤ 3) (hq : 0 ≤ q ∧ q ≤ 24)
    (hr : 0 ≤ r ∧ r ≤ 3) (hk : 0 ≤ k ∧ k ≤ 365) (h : k = 365 → r = 3 ∧ (q < 24 ∨ c = 3))
    (hz : z + 719468 = 146097 * era + (36524 * c + 1461 * q + 365 * r + k)) :
    civilFromDays z =
      { year := 400 * era + (100 * c + 4 * q + r) + (if (5 * k + 2) / 153 < 10 then 0 else 1)
        month := if (5 * k + 2) / 153 < 10 then (5 * k + 2) / 153 + 3 else (5 * k + 2) / 153 - 9
        day := k - (153 * ((5 * k + 2) / 153) + 2) / 5 + 1 } := by
  obtain ⟨doe, hdoe⟩ : ∃ e, e = 36524 * c + 1461 * q + 365 * r + k := ⟨_, rfl⟩
  have hb : 0 ≤ doe ∧ doe ≤ 146096 := by clear hz; omega
  have he : (z + 719468) / 146097 = era := by rw [hz, ← hdoe]; clear * - hb; omega
  have hd : (z + 719468) - era * 146097 = doe := by rw [hz, ← hdoe]; ring
  have hy := yoe_of_parts c q r k hc hq hr hk h doe hdoe
  have hk' : doe - (365 * (100 * c + 4 * q + r) + (100 * c + 4 * q + r) / 4 - (100 * c + 4 * q + r) / 100) = k := by
    rw [era_days_of_parts c q r hq hr]
    linarith
  simp only [civilFromDays]
  rw [he, hd, hy, hk']
  have hm0 : 0 ≤ (5 * k + 2) / 153 := by clear * - hk; omega
  have hm1 : (5 * k + 2) / 153 ≤ 11 := by clear * - hk; omega
  generalize (5 * k + 2) / 153 = mp at hm0 hm1 ⊢
  clear * - hm0 hm1
  by_cases hlt : mp < 10
  · simp only [hlt, if_true, show ¬ mp + 3 ≤ 2 by omega, if_false]
    congr 1
    ring
  · simp only [hlt, if_false, show mp - 9 ≤ 2 by omega, if_true]
    congr 1
    ring

/-- Every day number has parts. -/
theorem day_parts (z : Int) :
    ∃ era c q r k : Int, (0 ≤ c ∧ c ≤ 3) ∧ (0 ≤ q ∧ q ≤ 24) ∧ (0 ≤ r ∧ r ≤ 3) ∧ (0 ≤ k ∧ k ≤ 365) ∧
      (k = 365 → r = 3 ∧ (q < 24 ∨ c = 3)) ∧
      z + 719468 = 146097 * era + (36524 * c + 1461 * q + 365 * r + k) := by
  obtain ⟨doe, hd⟩ : ∃ e, e = (z + 719468) - (z + 719468) / 146097 * 146097 := ⟨_, rfl⟩
  have hd0 : 0 ≤ doe ∧ doe ≤ 146096 := by omega
  obtain ⟨c, q, r, k, hc, hq, hr, hk, h, hdoe⟩ := era_day_parts doe hd0.1 hd0.2
  exact ⟨(z + 719468) / 146097, c, q, r, k, hc, hq, hr, hk, h, by linarith⟩

/-- The civil year that ends a March-based year is a leap year exactly when that year has a day 365. -/
theorem leapYear_of_parts (era c q r : Int) (hc : 0 ≤ c ∧ c ≤ 3) (hq : 0 ≤ q ∧ q ≤ 24) (hr : 0 ≤ r ∧ r ≤ 3) :
    leapYear (400 * era + (100 * c + 4 * q + r) + 1) = true ↔ r = 3 ∧ (q < 24 ∨ c = 3) := by
  rw [leapYear_iff]
  have h4 : (400 * era + (100 * c + 4 * q + r) + 1) % 4 = (r + 1) % 4 := by omega
  have h100 : (400 * era + (100 * c + 4 * q + r) + 1) % 100 = (4 * q + r + 1) % 100 := by omega
  have h400 : (400 * era + (100 * c + 4 * q + r) + 1) % 400 = (100 * c + 4 * q + r + 1) % 400 := by omega
  rw [h4, h100, h400]
  clear h4 h100 h400
  omega

/-- `days_from_civil` (R59) of a date whose March-based year is given by its parts. -/
theorem daysFromCivil_of_parts (era c q r m d : Int) (hc : 0 ≤ c ∧ c ≤ 3) (hq : 0 ≤ q ∧ q ≤ 24)
    (hr : 0 ≤ r ∧ r ≤ 3) (y : Int) (hy : y = 400 * era + (100 * c + 4 * q + r) + (if m ≤ 2 then 1 else 0)) :
    daysFromCivil y m d = 146097 * era + (36524 * c + 1461 * q + 365 * r
      + ((153 * (if m > 2 then m - 3 else m + 9) + 2) / 5 + d - 1)) - 719468 := by
  simp only [daysFromCivil]
  have e1 : y - (if m ≤ 2 then 1 else 0) = 400 * era + (100 * c + 4 * q + r) := by rw [hy]; ring
  rw [e1]
  have e2 : (400 * era + (100 * c + 4 * q + r)) / 400 = era := by clear * - hc hq hr; omega
  rw [e2]
  have e3 : 400 * era + (100 * c + 4 * q + r) - era * 400 = 100 * c + 4 * q + r := by ring
  rw [e3]
  have := era_days_of_parts c q r hq hr
  linarith

end Sys2Proof.Machine
end

