-- ==== Sys2Proof/Laws/Decode.lean ====
section
/-! SUPPORT. The two fields of a command word (spec/30_encoding.md R42), and what a decoded word says of its
fields. -/

namespace Sys2Proof

theorem packCommand_fields (w : CmdWord) : packCommand (opcOf w) (operandOf w) = w := by
  ext i hi
  simp only [packCommand, opcOf, operandOf, ← BitVec.getLsbD_eq_getElem, BitVec.getLsbD_or,
    BitVec.getLsbD_shiftLeft, BitVec.getLsbD_setWidth, BitVec.getLsbD_extractLsb']
  rcases lt_or_ge i 64 with h | h
  · simp [h, hi]
  · have e : 64 + (i - 64) = i := by omega
    simp [hi, e, show i - 64 < 8 by omega, show ¬ i < 64 by omega, show i - 64 < 72 by omega]

@[simp] theorem opcOf_packCommand (opc : Opcode) (x : BitVec 64) : opcOf (packCommand opc x) = opc := by
  ext i hi
  simp only [packCommand, opcOf, ← BitVec.getLsbD_eq_getElem, BitVec.getLsbD_or, BitVec.getLsbD_shiftLeft,
    BitVec.getLsbD_setWidth, BitVec.getLsbD_extractLsb']
  simp [hi, show 64 + i < 72 by omega, show i < 72 by omega]

@[simp] theorem operandOf_packCommand (opc : Opcode) (x : BitVec 64) : operandOf (packCommand opc x) = x := by
  ext i hi
  simp only [packCommand, operandOf, ← BitVec.getLsbD_eq_getElem, BitVec.getLsbD_or, BitVec.getLsbD_shiftLeft,
    BitVec.getLsbD_setWidth, BitVec.getLsbD_extractLsb']
  simp [hi]
  omega

@[simp] theorem opcOf_encode (i : Instr) : opcOf (encode i) = i.opcode := by simp [encode]

@[simp] theorem operandOf_encode (i : Instr) : operandOf (encode i) = i.operand := by simp [encode]

/-- What decoding says of the fields: the opcode of the command, and the operand as R44 and R45 read it. -/
theorem decode_cases (w : CmdWord) :
    (opcOf w = opcPrepare ∧ decode w = .instr (.prepare (operandOf w).toInt))
      ∨ (opcOf w = opcGetmod ∧ decode w = .instr (.getmod (operandOf w).toNat))
      ∨ (opcOf w ≠ opcPrepare ∧ opcOf w ≠ opcGetmod ∧ decode w = .illegal (opcOf w)) := by
  by_cases h1 : opcOf w = opcPrepare
  · exact .inl ⟨h1, by simp [decode, h1]⟩
  by_cases h2 : opcOf w = opcGetmod
  · exact .inr (.inl ⟨h2, by simp [decode, h2, show opcGetmod ≠ opcPrepare by decide]⟩)
  · exact .inr (.inr ⟨h1, h2, by simp [decode, h1, h2]⟩)

end Sys2Proof
end

