-- ==== Sys2Proof/Laws/State.lean ====
section
/-! SUPPORT. One lemma per field per update of the state, so that no later proof unfolds a record update. -/

namespace Sys2Proof.Machine

@[simp] theorem raiseFault_frame (c : FaultCode) (w : CmdWord) (s : State) : (raiseFault c w s).frame = s.frame := rfl
@[simp] theorem raiseFault_frameValid (c : FaultCode) (w : CmdWord) (s : State) : (raiseFault c w s).frameValid = s.frameValid := rfl
@[simp] theorem raiseFault_faultCode (c : FaultCode) (w : CmdWord) (s : State) : (raiseFault c w s).faultCode = c := rfl
@[simp] theorem raiseFault_faultCmd (c : FaultCode) (w : CmdWord) (s : State) : (raiseFault c w s).faultCmd = some w := rfl
@[simp] theorem raiseFault_pending (c : FaultCode) (w : CmdWord) (s : State) : (raiseFault c w s).pending = s.pending := rfl
@[simp] theorem raiseFault_responses (c : FaultCode) (w : CmdWord) (s : State) : (raiseFault c w s).responses = s.responses := rfl

@[simp] theorem writeFrame_frame (f : Frame) (s : State) : (writeFrame f s).frame = some f := rfl
@[simp] theorem writeFrame_frameValid (f : Frame) (s : State) : (writeFrame f s).frameValid = true := rfl
@[simp] theorem writeFrame_faultCode (f : Frame) (s : State) : (writeFrame f s).faultCode = s.faultCode := rfl
@[simp] theorem writeFrame_faultCmd (f : Frame) (s : State) : (writeFrame f s).faultCmd = s.faultCmd := rfl
@[simp] theorem writeFrame_pending (f : Frame) (s : State) : (writeFrame f s).pending = s.pending := rfl
@[simp] theorem writeFrame_responses (f : Frame) (s : State) : (writeFrame f s).responses = s.responses := rfl

@[simp] theorem respond_frame (w : CmdWord) (r : RspWord) (s : State) : (respond w r s).frame = s.frame := rfl
@[simp] theorem respond_frameValid (w : CmdWord) (r : RspWord) (s : State) : (respond w r s).frameValid = s.frameValid := rfl
@[simp] theorem respond_faultCode (w : CmdWord) (r : RspWord) (s : State) : (respond w r s).faultCode = s.faultCode := rfl
@[simp] theorem respond_faultCmd (w : CmdWord) (r : RspWord) (s : State) : (respond w r s).faultCmd = s.faultCmd := rfl
@[simp] theorem respond_pending (w : CmdWord) (r : RspWord) (s : State) : (respond w r s).pending = s.pending := rfl
@[simp] theorem respond_responses (w : CmdWord) (r : RspWord) (s : State) : (respond w r s).responses = s.responses ++ [{ cmd := w, word := r }] := rfl

@[simp] theorem resetRegisters_frame (s : State) : (resetRegisters s).frame = none := rfl
@[simp] theorem resetRegisters_frameValid (s : State) : (resetRegisters s).frameValid = false := rfl
@[simp] theorem resetRegisters_faultCode (s : State) : (resetRegisters s).faultCode = .none := rfl
@[simp] theorem resetRegisters_faultCmd (s : State) : (resetRegisters s).faultCmd = none := rfl
@[simp] theorem resetRegisters_pending (s : State) : (resetRegisters s).pending = s.pending := rfl
@[simp] theorem resetRegisters_responses (s : State) : (resetRegisters s).responses = s.responses := rfl

@[simp] theorem withPending_frame (evs : List HostEvent) (s : State) : (withPending evs s).frame = s.frame := rfl
@[simp] theorem withPending_frameValid (evs : List HostEvent) (s : State) : (withPending evs s).frameValid = s.frameValid := rfl
@[simp] theorem withPending_faultCode (evs : List HostEvent) (s : State) : (withPending evs s).faultCode = s.faultCode := rfl
@[simp] theorem withPending_faultCmd (evs : List HostEvent) (s : State) : (withPending evs s).faultCmd = s.faultCmd := rfl
@[simp] theorem withPending_pending (evs : List HostEvent) (s : State) : (withPending evs s).pending = evs := rfl
@[simp] theorem withPending_responses (evs : List HostEvent) (s : State) : (withPending evs s).responses = s.responses := rfl

@[simp] theorem offerNext_frame (w : CmdWord) (s : State) : (offerNext w s).frame = s.frame := rfl
@[simp] theorem offerNext_frameValid (w : CmdWord) (s : State) : (offerNext w s).frameValid = s.frameValid := rfl
@[simp] theorem offerNext_faultCode (w : CmdWord) (s : State) : (offerNext w s).faultCode = s.faultCode := rfl
@[simp] theorem offerNext_faultCmd (w : CmdWord) (s : State) : (offerNext w s).faultCmd = s.faultCmd := rfl
@[simp] theorem offerNext_pending (w : CmdWord) (s : State) : (offerNext w s).pending = .command w :: s.pending := rfl
@[simp] theorem offerNext_responses (w : CmdWord) (s : State) : (offerNext w s).responses = s.responses := rfl

@[simp] theorem reset_frame : State.reset.frame = none := rfl
@[simp] theorem reset_frameValid : State.reset.frameValid = false := rfl
@[simp] theorem reset_faultCode : State.reset.faultCode = .none := rfl
@[simp] theorem reset_faultCmd : State.reset.faultCmd = none := rfl
@[simp] theorem reset_pending : State.reset.pending = [] := rfl
@[simp] theorem reset_responses : State.reset.responses = [] := rfl

/-- Acceptance is `FAULT_CODE = NONE` (R85). -/
theorem accepts_iff (s : State) : s.accepts = true ↔ s.faultCode = .none := by simp [State.accepts]

@[simp] theorem withPending_accepts (evs : List HostEvent) (s : State) : (withPending evs s).accepts = s.accepts := rfl

end Sys2Proof.Machine
end

