-- ==== Sys2Proof/Laws/Ops.lean ====
section
/-! SUPPORT. What each shared operation can do, said once: acceptance, a read of the frame, the two commands,
an offered word and a step. Later proofs cite these instead of unfolding the operations. -/

namespace Sys2Proof.Machine

/-! ## Acceptance -/

theorem ifAccepted_of_none {s : State} (h : s.faultCode = .none) (d : State) : ifAccepted s d = .next d := by
  simp [ifAccepted, (accepts_iff s).2 h]

theorem ifAccepted_of_fault {s : State} (h : s.faultCode ≠ .none) (d : State) : ifAccepted s d = .next s := by
  simp [ifAccepted, mt (accepts_iff s).1 h]

/-- An accepted command leaves `d`, an unaccepted one leaves the state as it was. -/
theorem ifAccepted_cases (s d : State) :
    (s.faultCode = .none ∧ ifAccepted s d = .next d) ∨ (s.faultCode ≠ .none ∧ ifAccepted s d = .next s) := by
  by_cases h : s.faultCode = .none
  · exact .inl ⟨h, ifAccepted_of_none h d⟩
  · exact .inr ⟨h, ifAccepted_of_fault h d⟩

/-! ## The frame register -/

theorem readFrame_of_valid {s : State} {f : Frame} (hv : s.frameValid = true) (hf : s.frame = some f) :
    readFrame s = some f := by simp [readFrame, hv, hf]

theorem readFrame_of_invalid {s : State} (hv : s.frameValid = false) : readFrame s = none := by
  simp [readFrame, hv]

theorem readFrame_eq_some {s : State} {f : Frame} (h : readFrame s = some f) :
    s.frameValid = true ∧ s.frame = some f := by
  unfold readFrame at h
  split at h
  · exact ⟨‹_›, h⟩
  · cases h

/-! ## The classifier -/

/-- R74's condition for the marker, as the classifier decides it. -/
theorem classify_marker_of {n : Nat} (h : n = 0 ∨ n % 10 = 9 ∨ 59 < n) : classify n = .marker := by
  unfold classify
  split <;> [rfl; split <;> [rfl; split <;> [rfl; omega]]]

theorem classify_data_of {n : Nat} (h1 : 1 ≤ n) (h2 : n ≤ 58) (h3 : n % 10 ≠ 9) : classify n = .data := by
  unfold classify
  rw [if_neg (by omega), if_neg h3, if_neg (by omega)]

/-! ## The commands -/

/-- An accepted PREPARE_MINUTE writes the frame or records F_DOMAIN. -/
theorem prepareMinute_cases (ts : TimeServices) (t : Int) (s : State) :
    (inDomain t = true ∧ prepareMinute ts t s = writeFrame (minuteFrame ts t) s)
      ∨ (inDomain t = false ∧ prepareMinute ts t s = raiseFault .domain (encode (.prepare t)) s) := by
  unfold prepareMinute
  cases h : inDomain t <;> simp

/-- An accepted GET_MODULATION answers the word of its second's symbol or records F_UNPREPARED. -/
theorem getModulation_cases (n : Nat) (s : State) :
    (classify n = .marker ∧ getModulation n s = respond (encode (.getmod n)) (symbolWord .marker) s)
      ∨ (classify n = .data ∧ ∃ f, readFrame s = some f
          ∧ getModulation n s = respond (encode (.getmod n)) (symbolWord (bitSymbol (sliceBit f n))) s)
      ∨ (classify n = .data ∧ readFrame s = none
          ∧ getModulation n s = raiseFault .unprepared (encode (.getmod n)) s) := by
  unfold getModulation
  cases h : classify n
  · exact .inl ⟨rfl, rfl⟩
  · cases hr : readFrame s with
    | none => exact .inr (.inr ⟨rfl, rfl, by simp⟩)
    | some f => exact .inr (.inl ⟨rfl, f, rfl, by simp⟩)

theorem exec_prepare_of_none {s : State} (h : s.faultCode = .none) (t : Int) :
    exec (.prepare t) s = .next (prepareMinute Config.timeServices t s) := ifAccepted_of_none h _

theorem exec_getmod_of_none {s : State} (h : s.faultCode = .none) (n : Nat) :
    exec (.getmod n) s = .next (getModulation n s) := ifAccepted_of_none h _

theorem exec_of_fault {s : State} (h : s.faultCode ≠ .none) (i : Instr) : exec i s = .next s := by
  cases i <;> exact ifAccepted_of_fault h _

/-! ## A word offered, and a step -/

/-- Everything an accepted word can do: what it decodes to decides it (R86). -/
theorem takeCommand_of_none {s : State} (h : s.faultCode = .none) (w : CmdWord) :
    takeCommand w s = .next (match decode w with
      | .instr (.prepare t) => prepareMinute Config.timeServices t s
      | .instr (.getmod n) => getModulation n s
      | .illegal _ => raiseFault .illegal w s) := by
  unfold takeCommand
  cases decode w with
  | instr i => cases i <;> exact ifAccepted_of_none h _
  | illegal opc => exact ifAccepted_of_none h _

/-- A word offered while a fault is recorded does nothing (R85). -/
theorem takeCommand_of_fault {s : State} (h : s.faultCode ≠ .none) (w : CmdWord) : takeCommand w s = .next s := by
  unfold takeCommand
  cases decode w with
  | instr i => exact exec_of_fault h i
  | illegal opc => exact ifAccepted_of_fault h _

theorem step_of_nil {s : State} (h : s.pending = []) : step s = .next s := by simp [step, takeEvent, h]

theorem step_of_reset {s : State} {rest : List HostEvent} (h : s.pending = .reset :: rest) :
    step s = .next (resetRegisters (withPending rest s)) := by simp [step, takeEvent, h]

theorem step_of_command {s : State} {w : CmdWord} {rest : List HostEvent} (h : s.pending = .command w :: rest) :
    step s = takeCommand w (withPending rest s) := by simp [step, takeEvent, h]

/-- Everything a step can do: idle, reset, a word not accepted, or one of the effects of an accepted word. -/
theorem step_cases {s u : State} (h : step s = .next u) :
    (s.pending = [] ∧ u = s)
    ∨ (∃ rest, s.pending = .reset :: rest ∧ u = resetRegisters (withPending rest s))
    ∨ ∃ w rest, s.pending = .command w :: rest ∧
        ((s.faultCode ≠ .none ∧ u = withPending rest s)
        ∨ (s.faultCode = .none ∧
            ((∃ t, decode w = .instr (.prepare t) ∧ u = prepareMinute Config.timeServices t (withPending rest s))
            ∨ (∃ n, decode w = .instr (.getmod n) ∧ u = getModulation n (withPending rest s))
            ∨ (∃ opc, decode w = .illegal opc ∧ u = raiseFault .illegal w (withPending rest s))))) := by
  cases hp : s.pending with
  | nil =>
    rw [step_of_nil hp] at h
    cases h
    exact .inl ⟨rfl, rfl⟩
  | cons e rest =>
    cases e with
    | reset =>
      rw [step_of_reset hp] at h
      cases h
      exact .inr (.inl ⟨rest, rfl, rfl⟩)
    | command w =>
      refine .inr (.inr ⟨w, rest, rfl, ?_⟩)
      rw [step_of_command hp] at h
      by_cases hf : s.faultCode = .none
      · rw [takeCommand_of_none (s := withPending rest s) hf] at h
        refine .inr ⟨hf, ?_⟩
        cases hd : decode w with
        | instr i =>
          cases i with
          | prepare t => rw [hd] at h; cases h; exact .inl ⟨t, rfl, rfl⟩
          | getmod n => rw [hd] at h; cases h; exact .inr (.inl ⟨n, rfl, rfl⟩)
        | illegal opc => rw [hd] at h; cases h; exact .inr (.inr ⟨opc, rfl, rfl⟩)
      · rw [takeCommand_of_fault (s := withPending rest s) hf] at h
        cases h
        exact .inl ⟨hf, rfl⟩

end Sys2Proof.Machine
end

