-- ==== Sys2Proof/Laws/PerInstr.lean ====
section
/-! SUPPORT. The per-instruction family TableMatch: a command's word matches its own row of R43's table. -/

namespace Sys2Proof

/-- A word under R43's mask is its opcode with a zero operand. -/
theorem masked_word (w : CmdWord) : w &&& 0xFF0000000000000000 = packCommand (opcOf w) 0 := by
  have lo : ∀ i : Fin 64, (0xFF0000000000000000 : BitVec 72).getLsbD i = false := by decide
  have hi' : ∀ i : Fin 8, (0xFF0000000000000000 : BitVec 72).getLsbD (64 + i) = true := by decide
  ext i hi
  simp only [packCommand, opcOf, ← BitVec.getLsbD_eq_getElem, BitVec.getLsbD_or, BitVec.getLsbD_and,
    BitVec.getLsbD_shiftLeft, BitVec.getLsbD_setWidth, BitVec.getLsbD_extractLsb']
  rcases lt_or_ge i 64 with h | h
  · have := lo ⟨i, h⟩
    simp only at this
    rw [this]
    simp [h]
  · have := hi' ⟨i - 64, by omega⟩
    have e : 64 + (i - 64) = i := by omega
    simp only at this
    rw [e] at this
    rw [this, e]
    simp [hi, show i - 64 < 8 by omega, show ¬ i < 64 by omega, show i - 64 < 72 by omega]

end Sys2Proof

namespace Sys2Proof.Laws.TableMatch

/-- The word of the command, under its row's mask, is its row's match (R43). -/
def Statement (i : Instr) : Prop := encode i &&& i.tableMask = i.tableMatch

theorem prepare (instant : Int) : Statement (.prepare instant) := by
  unfold Statement
  simp only [Instr.tableMask, Instr.tableMatch]
  rw [masked_word, opcOf_encode]
  show packCommand opcPrepare 0 = _
  decide

theorem getmod (second : Nat) : Statement (.getmod second) := by
  unfold Statement
  simp only [Instr.tableMask, Instr.tableMatch]
  rw [masked_word, opcOf_encode]
  show packCommand opcGetmod 0 = _
  decide

end Sys2Proof.Laws.TableMatch
end

