-- ==== Sys2Proof/Laws/Run.lean ====
section
/-! SUPPORT. One step of a run of the host's machine (Host/Core.lean). -/

namespace Sys2Proof.Machine

/-- A run takes its first step and goes on from there. -/
theorem run_succ {s u : State} (h : step s = .next u) (k : Nat) :
    Host.Core.run core (k + 1) s = Host.Core.run core k u := by
  have h' : core.step s = .next u := h
  simp only [Host.Core.run, h']

/-- A run of no steps ends where it starts. -/
theorem run_zero (s : State) : Host.Core.run core 0 s = .next s := rfl

end Sys2Proof.Machine
end

