-- ==== Sys2Proof/Tests/Slice0.lean ====
section
/-! SUPPORT. Tests with expected values from spec/95_test_vectors.md (named in each comment) or from the words
of the rule cited. -/

namespace Sys2Proof.Tests

open Sys2Proof.Machine

/-! The test time services of spec/95_test_vectors.md part 1. -/

def tsUtc : TimeServices := { localMidnight := fun y m d => daysFromCivil y m d * 86400, localIsDst := fun _ => false }

def tsDst : TimeServices := { localMidnight := fun y m d => daysFromCivil y m d * 86400, localIsDst := fun _ => true }

def zdIsDst (t : Int) : Bool := decide (1710061200 ≤ t) && decide (t < 1730620800)

def tsZd : TimeServices :=
  { localMidnight := fun y m d =>
      if zdIsDst (daysFromCivil y m d * 86400 + 25200) then daysFromCivil y m d * 86400 + 21600
      else daysFromCivil y m d * 86400 + 25200
    localIsDst := zdIsDst }

def tsM : TimeServices :=
  { localMidnight := fun y m d => daysFromCivil y m d * 86400, localIsDst := fun t => decide (1710115200 ≤ t) }

def fIsDst (t : Int) : Bool := decide (1710061200 ≤ t) && decide (t < 1730615400)

def tsF : TimeServices :=
  { localMidnight := fun y m d =>
      if fIsDst (daysFromCivil y m d * 86400 + 25200) then daysFromCivil y m d * 86400 + 21600
      else daysFromCivil y m d * 86400 + 25200
    localIsDst := fIsDst }

/-- A state that holds the frame f and no fault. -/
def prepared (f : Frame) : State := { State.reset with frame := some f, frameValid := true }

/-- `s` with one command word offered. -/
def offered (w : CmdWord) (s : State) : State := { s with pending := [.command w] }

/-- The registers a step leaves (R28), for tests. -/
def registersAfter (o : Host.Outcome State Fault Refusal) : Option (Option Frame × Bool × FaultCode × Option CmdWord) :=
  match o with
  | .next s => some (s.frame, s.frameValid, s.faultCode, s.faultCmd)
  | _ => none

/-- The response words after a step. -/
def wordsAfter (o : Host.Outcome State Fault Refusal) : Option (List RspWord) :=
  match o with
  | .next s => some (s.responses.map Response.word)
  | _ => none

/-! Well-formedness: a term each check refuses. -/

/-- R44: 2^63 and -2^63-1 do not fit the operand. R45: 2^64 does not. -/
theorem test_wellFormed_refuses :
    (Instr.prepare 9223372036854775808).wellFormed = false ∧ (Instr.prepare (-9223372036854775809)).wellFormed = false
      ∧ (Instr.getmod 18446744073709551616).wellFormed = false := by decide

/-! Decoding: V-ENC-1 to V-ENC-10. -/

theorem test_decode_prepare :
    decode 0x010000000065ECFF08 = .instr (.prepare 1710030600)
      ∧ decode 0x01FFFFFFFFFFFFFFFF = .instr (.prepare (-1))
      ∧ decode 0x01FFFFFFF1886E0900 = .instr (.prepare (-62135596800))
      ∧ decode 0x010000003AFFF4417F = .instr (.prepare 253402300799)
      ∧ decode 0x010000003AFFF44180 = .instr (.prepare 253402300800) := by decide

theorem test_decode_getmod :
    decode 0x02000000000000003D = .instr (.getmod 61)
      ∧ decode 0x02FFFFFFFFFFFFFFFF = .instr (.getmod 18446744073709551615) := by decide

theorem test_decode_illegal :
    decode 0x000000000000000000 = .illegal 0x00 ∧ decode 0x030000000000000000 = .illegal 0x03
      ∧ decode 0xFF0000000000000001 = .illegal 0xFF := by decide

theorem test_decodeTableWord :
    decodeTableWord 72 0x010000000000000000 = some (.prepare 0)
      ∧ decodeTableWord 72 0x020000000000000000 = some (.getmod 0)
      ∧ decodeTableWord 72 0x030000000000000000 = none := by decide

/-! The sub-blocks. -/

/-- V-BCD. -/
theorem test_paddedBcd :
    [0, 1, 9, 10, 23, 24, 30, 59, 70, 99, 100, 365, 366, 999].map paddedBcd
      = [0x0, 0x1, 0x9, 0x20, 0x43, 0x44, 0x60, 0xA9, 0xE0, 0x129, 0x400, 0xCC5, 0xCC6, 0x2529] := by decide

/-- V-LYU and W1. -/
theorem test_leapYear :
    [1, 4, 100, 400, 1600, 2100, 2400, 9996, 9999, 2000, 2024, 1900, 2023, 2021].map leapYear
      = [false, true, false, true, true, false, true, true, false, true, true, false, false, false] := by decide

/-- V-CFE-1 to V-CFE-11: date, yday, hour, minute. -/
theorem test_calendar :
    [0, -1, 1710030600, 951827696, 978307199, -2203891200, 2147483648, 4133894400, -11644477200, -62135596800,
      253402300799].map (fun t => (utcDate t, utcYday t, utcHour t, utcMinute t))
    = [(⟨1970, 1, 1⟩, 1, 0, 0), (⟨1969, 12, 31⟩, 365, 23, 59), (⟨2024, 3, 10⟩, 70, 0, 30), (⟨2000, 2, 29⟩, 60, 12, 34),
       (⟨2000, 12, 31⟩, 366, 23, 59), (⟨1900, 3, 1⟩, 60, 0, 0), (⟨2038, 1, 19⟩, 19, 3, 14), (⟨2100, 12, 31⟩, 365, 0, 0),
       (⟨1600, 12, 31⟩, 366, 23, 0), (⟨1, 1, 1⟩, 1, 0, 0), (⟨9999, 12, 31⟩, 365, 23, 59)] := by decide

/-- The `days_from_civil` and `civil_from_days` checks below V-CFE. -/
theorem test_days :
    [daysFromCivil 1970 1 1, daysFromCivil 1969 12 31, daysFromCivil 2000 2 29, daysFromCivil 2024 1 1,
      daysFromCivil 2024 3 10, daysFromCivil 1 1 1, daysFromCivil 9999 12 31]
      = [0, -1, 11016, 19723, 19792, -719162, 2932896]
    ∧ civilFromDays (-141427) = ⟨1582, 10, 15⟩ ∧ civilFromDays 24837 = ⟨2038, 1, 1⟩ := by decide

/-- V-DST-1, 2, 3, 6, 7 (TS_ZD), 11 (TS_M), 12, 13 (TS_F), at noon of the UTC date: tm, dst_now, dst_next. -/
theorem test_dst :
    [1709985600, 1710072000, 1710158400, 1730635200, 1730721600].map
        (fun t => (localMidnightOf tsZd t, dstNow tsZd t, dstNext tsZd t))
      = [(1709967600, false, false), (1710054000, false, true), (1710136800, true, true), (1730613600, true, false),
         (1730703600, false, false)]
    ∧ (localMidnightOf tsM 1710072000, dstNow tsM 1710072000, dstNext tsM 1710072000) = (1710028800, false, true)
    ∧ [1730548800, 1730635200].map (fun t => (localMidnightOf tsF t, dstNow tsF t, dstNext tsF t))
      = [(1730527200, true, true), (1730617200, false, false)] := by decide

/-! The instructions, one step each. -/

/-- V-FE-1 to V-FE-17, the frame PREPARE_MINUTE writes. -/
theorem test_prepare_frames :
    [(1710030600, tsUtc), (1710030600, tsZd), (1704067170, tsUtc), (1704067200, tsUtc), (0, tsUtc), (978307199, tsUtc),
      (1730635200, tsZd), (1720118710, tsZd), (253402300799, tsUtc), (-62135596800, tsUtc), (-1, tsUtc),
      (1710028740, tsZd), (1710115200, tsZd), (1720118710, tsDst), (1710072000, tsM), (1730548800, tsF),
      (1730635200, tsF)].map (fun p => (prepareMinute p.2 p.1 State.reset).frame)
    = [0x300000380001110, 0x300000380001114, 0x5488633140010C0, 0x000000004001110, 0x000000004003800, 0x548863318000010,
       0x000443020001112, 0x428501418001116, 0x548863314004A40, 0x000000004000040, 0x548863314003240,
       0x548860324001110, 0x000000384001116, 0x428501418001116, 0x000440380001114, 0x00044301C001116,
       0x000443020001110].map (fun f : Frame => some f) := by decide

/-- V-FLT-3 and V-FLT-4: an instant outside the domain. -/
theorem test_prepare_outOfDomain :
    registersAfter (step (offered 0x010000003AFFF44180 (prepared 0x548863314004A40)))
      = some (some 0x548863314004A40, true, .domain, some 0x010000003AFFF44180)
    ∧ registersAfter (step (offered 0x01FFFFFFF1886E08FF State.reset))
      = some (none, false, .domain, some 0x01FFFFFFF1886E08FF) := by decide

/-- V-SM-1 to V-SM-11, V-SM-13, V-SM-14. -/
theorem test_getmod_words :
    [0, 59, 2, 1, 57, 58, 60, 69, 18446744073709551615].map
        (fun n => wordsAfter (exec (.getmod n) (prepared 0x300000380001114)))
      = [0x006410000, 0x006410000, 0x003E90000, 0x001910000, 0x003E90000, 0x001910000, 0x006410000, 0x006410000,
         0x006410000].map (fun w : RspWord => some [w])
    ∧ [0, 61].map (fun n => wordsAfter (exec (.getmod n) State.reset)) = [some [0x006410000], some [0x006410000]]
    ∧ [10, 19].map (fun n => wordsAfter (exec (.getmod n) (prepared 0xFFFFFFFFFFFFFFF)))
      = [some [0x003E90000], some [0x006410000]] := by decide

/-- V-FLT-5, with V-SM-12: an unprepared read; no response. -/
theorem test_getmod_unprepared :
    registersAfter (step (offered 0x020000000000000001 State.reset))
      = some (none, false, .unprepared, some 0x020000000000000001)
    ∧ wordsAfter (step (offered 0x020000000000000001 State.reset)) = some [] := by decide

/-- V-FLT-1 and V-FLT-2: an illegal word. -/
theorem test_illegal_word :
    registersAfter (step (offered 0x000000000000000000 State.reset))
      = some (none, false, .illegal, some 0x000000000000000000)
    ∧ registersAfter (step (offered 0x030000000000000000 (prepared 0x000000004003800)))
      = some (some 0x000000004003800, true, .illegal, some 0x030000000000000000) := by decide

/-- R23, R18 on the states of V-SM and V-FLT: the values STATUS carries. -/
theorem test_status :
    State.reset.status = (0, 0) ∧ (prepared 0x000000004003800).status = (1, 0)
      ∧ [FaultCode.illegal, .domain, .unprepared].map (fun c => (raiseFault c 0 State.reset).status)
        = [(0, 1), (0, 2), (0, 3)] := by decide

/-- The machine after V-FLT-1, with an event still to come. -/
def halted (e : HostEvent) : State :=
  { State.reset with faultCode := .illegal, faultCmd := some 0, pending := [e] }

/-- V-FLT-6: `prepare 0` is not accepted while a fault is recorded; a reset leaves the faulted state (R87). -/
theorem test_halted :
    registersAfter (step (halted (.command 0x010000000000000000))) = some (none, false, .illegal, some 0)
      ∧ registersAfter (step (halted .reset)) = some (none, false, .none, none) := by decide

/-- The first step after reset runs a word placed by `withFetchWord`. -/
theorem test_withFetchWord :
    (∃ s, step (State.reset.withFetchWord 72 0x010000000000000000) = .next s ∧ s.frameValid = true)
      ∧ wordsAfter (step (State.reset.withFetchWord 72 0x020000000000000000)) = some [0x006410000] :=
  ⟨⟨_, rfl, rfl⟩, by decide⟩

/-! The assembler (R52 to R55). -/

/-- P6 line 1, P4 line 3, V-ENC-7, and a literal that does not fit (R52). -/
theorem test_assembleLine :
    assembleLine ['p', 'r', 'e', 'p', 'a', 'r', 'e', ' ', '@', '2', '0', '2', '4', '-', '1', '1', '-', '0', '3', 'T',
        '1', '2', ':', '0', '0', ':', '0', '0', 'Z'] = some [0x0100000000672765C0]
    ∧ assembleLine ['.', 'w', 'o', 'r', 'd', ' ', '0', 'x', '0', '3', '_', '0', '0', '0', '0', '0', '0', '0', '0', '0',
        '0', '0', '0', '0', '0', '0', '0', ' ', ';', ' ', 'x'] = some [0x030000000000000000]
    ∧ assembleLine ['g', 'e', 't', 'm', 'o', 'd', ' ', '1', '8', '4', '4', '6', '7', '4', '4', '0', '7', '3', '7', '0',
        '9', '5', '5', '1', '6', '1', '5'] = some [0x02FFFFFFFFFFFFFFFF]
    ∧ assembleLine ['g', 'e', 't', 'm', 'o', 'd', ' ', '1', '8', '4', '4', '6', '7', '4', '4', '0', '7', '3', '7', '0',
        '9', '5', '5', '1', '6', '1', '6'] = none := by decide

/-- R55 on V-ENC-1 and V-ENC-9. -/
theorem test_disassemble :
    disassemble 0x01FFFFFFFFFFFFFFFF = ['p', 'r', 'e', 'p', 'a', 'r', 'e', ' ', '-', '1']
    ∧ disassemble 0x030000000000000000 = ['.', 'w', 'o', 'r', 'd', ' ', '0', 'x', '0', '3', '_', '0', '0', '0', '0', '0',
        '0', '0', '0', '0', '0', '0', '0', '0', '0', '0', '0'] := by decide

/-- P1: `minute @2024-03-10T00:30:00Z` is 61 words, the first `0x01_0000000065ECFF08`, the last
`0x02_000000000000003B`. -/
theorem test_minute :
    ((minuteCommands 1710030600).map encode).length = 61
      ∧ ((minuteCommands 1710030600).map encode).head? = some 0x010000000065ECFF08
      ∧ ((minuteCommands 1710030600).map encode).getLast? = some 0x02000000000000003B := by decide

/-! Witnesses: for each statement with hypotheses, a case that meets all of them, at the boundary values. -/

/-- DecodeOfEncodeIsIdentity: both ends of both operand ranges. -/
theorem witness_wellFormed :
    (Instr.prepare (-9223372036854775808)).wellFormed = true ∧ (Instr.prepare 9223372036854775807).wellFormed = true
      ∧ (Instr.getmod 0).wellFormed = true ∧ (Instr.getmod 18446744073709551615).wellFormed = true := by decide

/-- EncodeOfDecodeIsIdentity: one legal word of each command. -/
theorem witness_legal_words :
    decode 0x018000000000000000 = .instr (.prepare (-9223372036854775808))
      ∧ decode 0x020000000000000000 = .instr (.getmod 0) := by decide

/-- MatchAndMaskSelectCommand: a word for each clause. -/
theorem witness_masks :
    (0x01FFFFFFFFFFFFFFFF : CmdWord) &&& 0xFF0000000000000000 = 0x010000000000000000
      ∧ (0x02FFFFFFFFFFFFFFFF : CmdWord) &&& 0xFF0000000000000000 = 0x020000000000000000
      ∧ (0x03FFFFFFFFFFFFFFFF : CmdWord) &&& 0xFF0000000000000000 ≠ 0x010000000000000000
      ∧ (0x03FFFFFFFFFFFFFFFF : CmdWord) &&& 0xFF0000000000000000 ≠ 0x020000000000000000 := by decide

/-- StepRunsDecodedInstruction. -/
theorem witness_decoded_event :
    (offered 0x02000000000000003D State.reset).pending = .command 0x02000000000000003D :: []
      ∧ decode 0x02000000000000003D = .instr (.getmod 61) := by decide

/-- StepOnIllegalWordRaisesIllegal: the opcodes beside the legal ones. -/
theorem witness_illegal_event :
    (offered 0x000000000000000000 State.reset).pending = .command 0x000000000000000000 :: []
      ∧ (offered 0x000000000000000000 State.reset).faultCode = .none
      ∧ opcOf 0x000000000000000000 ≠ 0x01 ∧ opcOf 0x000000000000000000 ≠ 0x02
      ∧ opcOf 0x030000000000000000 ≠ 0x01 ∧ opcOf 0x030000000000000000 ≠ 0x02 := by decide

/-- StepWithNoEventIsIdle; ResetSetsEveryRegister and ResetKeepsWhatCrossedThePorts. -/
theorem witness_idle_and_reset : State.reset.pending = [] ∧ (halted .reset).pending = .reset :: [] := by decide

/-- PrepareCompletesInDomain, at both ends of the domain. -/
theorem witness_domain_ends :
    State.reset.faultCode = .none ∧ (-62135596800 : Int) ≤ -62135596800 ∧ (-62135596800 : Int) ≤ 253402300799
      ∧ inDomain (-62135596800) = true ∧ inDomain 253402300799 = true := by decide

/-- PrepareOutsideDomainRaisesDomain, just outside both ends. -/
theorem witness_outside_domain :
    State.reset.faultCode = .none ∧ ((-62135596801 : Int) < -62135596800 ∨ (253402300799 : Int) < -62135596801)
      ∧ ((253402300800 : Int) < -62135596800 ∨ (253402300799 : Int) < 253402300800) := by decide

/-- PrepareChangesFrameOrFaultRecordOnly: a PREPARE_MINUTE that writes the frame and one that faults. -/
theorem witness_prepare_answers :
    (∃ u, exec (.prepare 0) State.reset = .next u) ∧ (∃ u, exec (.prepare 253402300800) State.reset = .next u) :=
  ⟨⟨_, rfl⟩, ⟨_, rfl⟩⟩

/-- FrameDependsOnMinuteAndTimeServices and PrepareIsIdempotentWithinMinute: the first and last second of a
minute, after and before 1970; a bit beside the DST bits. -/
theorem witness_same_minute :
    State.reset.faultCode = .none ∧ inDomain 1710030600 = true ∧ (1710030600 : Int) / 60 = 1710030659 / 60
      ∧ inDomain (-60) = true ∧ (-60 : Int) / 60 = -1 / 60
      ∧ (0 : Nat) ≠ 1 ∧ (0 : Nat) ≠ 2 ∧ (3 : Nat) ≠ 1 ∧ (3 : Nat) ≠ 2 := by decide

/-- PaddedBcdPlacesDigits and PaddedBcdRoundTripsWithinWidths: the ends of each range. -/
theorem witness_bcd_ranges : 999 ≤ 999 ∧ 59 ≤ 59 ∧ 23 ≤ 23 ∧ 366 ≤ 366 ∧ 99 ≤ 99 := by decide

/-- CivilFromDaysIsUniqueInverse: leap day, year ends. -/
theorem witness_valid_dates :
    validDate 2024 2 29 = true ∧ validDate 1 1 1 = true ∧ validDate 9999 12 31 = true ∧ validDate (-4) 2 29 = true
      ∧ validDate 2023 2 29 = false ∧ validDate 1900 2 29 = false := by decide

/-- GetmodAnswersMarker: each disjunct, before any PREPARE_MINUTE. -/
theorem witness_marker_seconds :
    State.reset.faultCode = .none ∧ State.reset.frameValid = false
      ∧ (9 % 10 = 9) ∧ (59 % 10 = 9) ∧ 59 < 60 := by decide

/-- GetmodAnswersDataBit, MarkerOnlyAtMarkerSeconds, ReadsCommute: a prepared state with bits of both values;
the first and last data second. -/
theorem witness_prepared :
    (prepared 0x300000380001114).faultCode = .none ∧ (prepared 0x300000380001114).frameValid = true
      ∧ (prepared 0x300000380001114).frame = some 0x300000380001114
      ∧ 1 ≤ 58 ∧ 58 ≤ 58 ∧ 58 % 10 ≠ 9 ∧ 1 % 10 ≠ 9
      ∧ (0x300000380001114 : Frame).getLsbD (59 - 2) = true
      ∧ (0x300000380001114 : Frame).getLsbD (59 - 1) = false := by decide

/-- GetmodUnpreparedRaisesFault: a data and a marker second. -/
theorem witness_unprepared :
    State.reset.faultCode = .none ∧ State.reset.frameValid = false ∧ 1 ≤ 1 ∧ 1 ≤ 58 ∧ 1 % 10 ≠ 9
      ∧ (0 = 0 ∨ 0 % 10 = 9 ∨ 59 < 0) := by decide

/-- GetmodWritesNoRegister: an answer that is no fault, and one that is. -/
theorem witness_getmod_answers :
    (∃ u, exec (.getmod 0) State.reset = .next u ∧ u.faultCode = .none)
      ∧ (∃ u, exec (.getmod 1) State.reset = .next u ∧ u.faultCode ≠ .none) :=
  ⟨⟨_, rfl, by decide⟩, ⟨_, rfl, by decide⟩⟩

/-- BitSlicerStaysInsideTheFrame and AmplitudeScheduleTable: the ends of the data seconds, both bits. -/
theorem witness_classes :
    classify 1 = .data ∧ classify 58 = .data ∧ classify 0 = .marker ∧ classify 60 = .marker
      ∧ (0x300000380001114 : Frame).getLsbD (59 - 57) = true
      ∧ (0x300000380001114 : Frame).getLsbD (59 - 58) = false := by decide

/-- MinuteOfAnswersDeterminesFrame: a frame of V-FE with itself. -/
theorem witness_written_frame :
    (0x300000380001114 : Frame) &&& alwaysZeroMask = 0
      ∧ ∀ n : Nat, n < 60 →
          (responseTo 0x300000380001114 n).word = (responseTo 0x300000380001114 n).word :=
  ⟨by decide, fun _ _ => rfl⟩

/-- ReadSeesThePreparedFrame and FrameValidSetByPrepareClearedByReset. -/
theorem witness_prepare_then_read : State.reset.faultCode = .none ∧ inDomain 0 = true := by decide

/-- A state that meets the invariant, with a prepared frame and a word offered. -/
theorem offered_prepared_inv (w : CmdWord) : (offered w (prepared 0x300000380001114)).Inv where
  valid_iff := by simp [offered, prepared]
  fixed_zero := by
    intro f h
    simp only [offered, prepared, Option.some.injEq] at h
    subst h
    decide
  fault_ok := trivial
  responses_ok := by simp [offered, prepared]

/-- FaultCodesAndCauses and StepKeepsInvariant: a step from a state that meets the invariant. -/
theorem witness_inv_step :
    (offered 0x010000003AFFF44180 (prepared 0x300000380001114)).Inv
      ∧ (offered 0x010000003AFFF44180 (prepared 0x300000380001114)).faultCode = .none
      ∧ ∃ u, step (offered 0x010000003AFFF44180 (prepared 0x300000380001114)) = .next u ∧ u.faultCode = .domain :=
  ⟨offered_prepared_inv _, rfl, _, rfl, rfl⟩

/-- FaultEntryIsPrecise: a step that ends with a fault recorded. -/
theorem witness_fault_entry :
    ∃ u, step (offered 0x020000000000000001 State.reset) = .next u ∧ u.faultCode ≠ .none :=
  ⟨_, rfl, by decide⟩

/-- HaltedBlockAcceptsNoWord, FaultRecordStaysUntilReset, HaltedRunAcceptsNothing: a halted block with a word
offered. -/
theorem witness_halted :
    (halted (.command 0x010000000000000000)).faultCode ≠ .none
      ∧ (halted (.command 0x010000000000000000)).pending = [0x010000000000000000].map HostEvent.command ++ []
      ∧ ∃ u, step (halted (.command 0x010000000000000000)) = .next u :=
  ⟨by decide, by decide, _, rfl⟩

/-- OnlyPrepareOrResetChangesFrame and FrameValidSetByPrepareClearedByReset: a PREPARE_MINUTE writes the frame
and sets the bit, a reset discards both. -/
theorem witness_frame_changes :
    (∃ u, step (offered 0x010000000000000000 State.reset) = .next u ∧ u.frame ≠ State.reset.frame
        ∧ State.reset.frameValid = false ∧ u.frameValid = true)
      ∧ (∃ u, step { prepared 0x300000380001114 with pending := [.reset] } = .next u
          ∧ u.frame ≠ (prepared 0x300000380001114).frame ∧ (prepared 0x300000380001114).frameValid = true
          ∧ u.frameValid = false) :=
  ⟨⟨_, rfl, fun h => (nomatch h), rfl, rfl⟩, ⟨_, rfl, by decide, rfl, rfl⟩⟩

/-- ReadsAreAnsweredInAcceptanceOrder: reads of a marker, a data and an out-of-range second. -/
theorem witness_reads :
    (∀ n ∈ [0, 58, 18446744073709551615], (Instr.getmod n).wellFormed = true)
      ∧ (prepared 0x300000380001114).faultCode = .none ∧ (prepared 0x300000380001114).frameValid = true
      ∧ { prepared 0x300000380001114 with
            pending := [0, 58, 18446744073709551615].map (fun n => HostEvent.command (encode (.getmod n))) }.pending
          = [0, 58, 18446744073709551615].map (fun n => HostEvent.command (encode (.getmod n))) ++ [] := by decide

/-- ScheduledHostIsAnsweredFromItsMinutes: two minutes with a reset between them, from the reset state; a
marker second needs no minute. -/
theorem witness_schedule :
    followsSchedule none [.read 7 0, .prepare 59, .read 0 1, .read 0 58, .reset, .prepare 60, .read 1 60, .read 1 2]
        = true
      ∧ followsSchedule none [.prepare 59, .read 1 1] = false
      ∧ State.reset.faultCode = .none ∧ holdsMinute Config.timeServices none State.reset :=
  ⟨by decide, by decide, rfl, trivial⟩

/-- IsoLiteralNamesItsInstant: the ends of the domain, R53's example, and a refused second 60. -/
theorem witness_iso :
    isoInstant 1 1 1 0 0 0 = some (-62135596800) ∧ isoInstant 9999 12 31 23 59 59 = some 253402300799
      ∧ isoInstant 2024 3 10 0 30 0 = some 1710030600 ∧ isoInstant 2016 12 31 23 59 60 = none := by decide

/-- IsoLiteralTextAssembles: the largest fields of the text form, and a text that is read. -/
theorem witness_isoText :
    9999 ≤ 9999 ∧ 99 ≤ 99
      ∧ isoText 2024 3 10 0 30 0 = ['@', '2', '0', '2', '4', '-', '0', '3', '-', '1', '0', 'T', '0', '0', ':', '3', '0',
          ':', '0', '0', 'Z']
      ∧ readIso (isoText 2024 3 10 0 30 0) = some 1710030600
      ∧ readIso (isoText 9999 99 99 99 99 99) = none := by decide

/-- NegativeSecondHasNoCommand: the values where its clauses meet. -/
theorem witness_hostSecond :
    hostSecond (-1) = none ∧ hostSecond 0 = some (.getmod 0)
      ∧ hostSecond 18446744073709551615 = some (.getmod 18446744073709551615)
      ∧ hostSecond 18446744073709551616 = none := by decide

end Sys2Proof.Tests
end

section
/-! The command-word encoding (spec/30_encoding.md R43 to R45, R51) and the pseudo-instruction `minute` (R54). -/

namespace Sys2Proof

/-- A row of R43's table is a test of the opcode alone. -/
theorem masked_eq_packCommand_iff (w : CmdWord) (opc : Opcode) :
    w &&& 0xFF0000000000000000 = packCommand opc 0 ↔ opcOf w = opc := by
  rw [masked_word]
  constructor
  · intro h
    simpa using congrArg opcOf h
  · rintro rfl
    rfl

theorem matches_prepare_iff (w : CmdWord) :
    w &&& 0xFF0000000000000000 = 0x010000000000000000 ↔ opcOf w = opcPrepare :=
  masked_eq_packCommand_iff w opcPrepare

theorem matches_getmod_iff (w : CmdWord) :
    w &&& 0xFF0000000000000000 = 0x020000000000000000 ↔ opcOf w = opcGetmod :=
  masked_eq_packCommand_iff w opcGetmod

theorem operandOf_eq_setWidth (w : CmdWord) : operandOf w = w.setWidth 64 :=
  BitVec.setWidth_eq_extractLsb' (by decide) |>.symm

theorem operandOf_toNat (w : CmdWord) : (operandOf w).toNat = w.toNat % 2 ^ 64 := by
  simp [operandOf]

theorem opcOf_eq_setWidth_shift (w : CmdWord) : opcOf w = (w >>> 64).setWidth 8 := rfl

/-- Settles O4: each row of the table is a test of the opcode alone, and the opcode chooses the command. -/
theorem matchAndMaskSelectCommand : Obligations.MatchAndMaskSelectCommand := by
  intro w
  have distinct : opcPrepare ≠ opcGetmod := by decide
  simp only [ne_eq, matches_prepare_iff, matches_getmod_iff, ← operandOf_eq_setWidth, ← operandOf_toNat,
    ← opcOf_eq_setWidth_shift]
  obtain ⟨hopc, hdec⟩ | ⟨hopc, hdec⟩ | ⟨hprep, hget, hdec⟩ := decode_cases w
  · simp [hopc, hdec, distinct]
  · simp [hopc, hdec, distinct.symm]
  · simp [hprep, hget, hdec]

namespace Machine

@[simp] theorem length_minuteCommands (t : Int) : (minuteCommands t).length = 61 := by
  simp [minuteCommands]

theorem minuteCommands_zero (t : Int) : (minuteCommands t)[0]? = some (.prepare t) := rfl

theorem minuteCommands_succ (t : Int) {n : Nat} (h : n < 60) :
    (minuteCommands t)[n + 1]? = some (.getmod n) := by
  simp [minuteCommands, List.getElem?_range h]

/-- Settles O56: the prepare is the head of the list, the reads are the image of 0 to 59 behind it. -/
theorem minuteExpandsToSixtyOneCommands : Obligations.MinuteExpandsToSixtyOneCommands := fun t =>
  ⟨length_minuteCommands t, minuteCommands_zero t, fun _ => minuteCommands_succ t⟩

end Machine

end Sys2Proof
end

section
/-! The frame encoder (spec/41_frame_encoder.md R56 to R68): PREPARE_MINUTE inside and outside its domain, the
DST bits of the frame, the padded-BCD packer, the leap-year unit and `civil_from_days`. -/

namespace Sys2Proof.Machine

/-! ## The leap-year unit (R64) -/

/-- Settles O22: the rule by divisibility is the rule by remainders. -/
theorem leapYearRule : Obligations.LeapYearRule := by
  refine ⟨fun y => ?_, by decide⟩
  simp only [leapYear_iff, Int.dvd_iff_emod_eq_zero, ne_eq]

/-! ## The padded-BCD packer (R62) -/

/-- The lanes do not overlap, so joining the digits is adding them. -/
theorem paddedBcd_eq_sum (n : Nat) :
    paddedBcd n = n / 100 % 10 * 2 ^ 10 + n / 10 % 10 * 2 ^ 5 + n % 10 := by
  have tens_ones : (n / 10 % 10) <<< 5 ||| n % 10 = (n / 10 % 10) <<< 5 + n % 10 :=
    (Nat.shiftLeft_add_eq_or_of_lt (by omega) _).symm
  have below_hundreds : (n / 10 % 10) <<< 5 + n % 10 < 2 ^ 10 := by
    rw [Nat.shiftLeft_eq]
    omega
  rw [paddedBcd, Nat.or_assoc, tens_ones, ← Nat.shiftLeft_add_eq_or_of_lt below_hundreds]
  simp only [Nat.shiftLeft_eq, Nat.add_assoc]

/-- Settles O20: each lane of the sum of digits holds its digit, of at most 4 bits. -/
theorem paddedBcdPlacesDigits : Obligations.PaddedBcdPlacesDigits := by
  intro n _
  have hundreds : n / 100 % 10 < 10 := Nat.mod_lt _ (by decide)
  have tens : n / 10 % 10 < 10 := Nat.mod_lt _ (by decide)
  have ones : n % 10 < 10 := Nat.mod_lt _ (by decide)
  simp only [paddedBcd_eq_sum, Nat.testBit_eq_decide_div_mod_eq, decide_eq_false_iff_not]
  generalize n / 100 % 10 = a, n / 10 % 10 = b, n % 10 = c at hundreds tens ones ⊢
  omega

/-! ## The DST bits of the assembled frame (R66 to R68) -/

/-- Bit k of the frame is the join of bit k of the seven terms. -/
theorem assembleFrame_getLsbD (minute hour yday yoc : Nat) (leap dstNext dstNow : Bool) {k : Nat} (hk : k < 60) :
    (assembleFrame minute hour yday yoc leap dstNext dstNow).getLsbD k
      = ((paddedBcd minute <<< 51).testBit k || (paddedBcd hour <<< 41).testBit k
        || (paddedBcd yday <<< 26).testBit k || (paddedBcd yoc <<< 6).testBit k
        || (leap.toNat <<< 4).testBit k || (dstNext.toNat <<< 2).testBit k || (dstNow.toNat <<< 1).testBit k) := by
  simp only [assembleFrame, BitVec.getLsbD_ofNat, Nat.testBit_or, hk, decide_true, Bool.true_and]

theorem assembleFrame_bit_one (minute hour yday yoc : Nat) (leap dstNext dstNow : Bool) :
    (assembleFrame minute hour yday yoc leap dstNext dstNow).getLsbD 1 = dstNow := by
  rw [assembleFrame_getLsbD _ _ _ _ _ _ _ (by decide)]
  simp [-Nat.testBit_zero, Nat.testBit_bool_toNat]

theorem assembleFrame_bit_two (minute hour yday yoc : Nat) (leap dstNext dstNow : Bool) :
    (assembleFrame minute hour yday yoc leap dstNext dstNow).getLsbD 2 = dstNext := by
  rw [assembleFrame_getLsbD _ _ _ _ _ _ _ (by decide)]
  simp [-Nat.testBit_zero, Nat.testBit_bool_toNat]

/-- Settles O16: bits 1 and 2 of the assembled frame are the assembler's two DST inputs, which are the host's
flags. -/
theorem dstBitsAreTheHostsFlags : Obligations.DstBitsAreTheHostsFlags := fun _ _ _ =>
  ⟨assembleFrame_bit_one .., assembleFrame_bit_two ..⟩

/-! ## PREPARE_MINUTE (R56, R57, R71) -/

theorem prepareMinute_of_inDomain {t : Int} (h : inDomain t = true) (ts : TimeServices) (s : State) :
    prepareMinute ts t s = writeFrame (minuteFrame ts t) s := by
  simp [prepareMinute, h]

theorem prepareMinute_of_not_inDomain {t : Int} (h : inDomain t = false) (ts : TimeServices) (s : State) :
    prepareMinute ts t s = raiseFault .domain (encode (.prepare t)) s := by
  simp [prepareMinute, h]

theorem inDomain_eq_false_iff (t : Int) : inDomain t = false ↔ t < -62135596800 ∨ 253402300799 < t := by
  rw [← Bool.not_eq_true, inDomain_iff]
  omega

/-- Settles O11: an accepted command in the domain is `writeFrame` of the minute's frame, whose DST inputs are
the host's answers. -/
theorem prepareCompletesInDomain : Obligations.PrepareCompletesInDomain := by
  intro t s hmin hmax
  have hdom : inDomain t = true := (inDomain_iff t).2 ⟨hmin, hmax⟩
  refine ⟨fun hnone => ?_, fun ts => prepareMinute_of_inDomain hdom ts s⟩
  rw [exec_prepare_of_none hnone, prepareMinute_of_inDomain hdom]
  rfl

/-- Settles O12: an accepted command outside the domain is the fault entry of F_DOMAIN. -/
theorem prepareOutsideDomainRaisesDomain : Obligations.PrepareOutsideDomainRaisesDomain := by
  intro t s hout
  have hdom : inDomain t = false := (inDomain_eq_false_iff t).2 hout
  refine ⟨fun hnone => ?_, fun ts => prepareMinute_of_not_inDomain hdom ts s⟩
  rw [exec_prepare_of_none hnone, prepareMinute_of_not_inDomain hdom]
  rfl

/-! ## `civil_from_days` and `days_from_civil` (R59, R60)

Both count a year from 1 March: month `mp` of such a year begins at its day `(153 * mp + 2) / 5`, and day k lies
in month `(5 * k + 2) / 153`. -/

theorem daysInMonth_february (y : Int) : daysInMonth y 2 = if leapYear y then 29 else 28 := if_pos rfl

/-- The other months are as long as the March-based starts lie apart. -/
theorem daysInMonth_of_ne_february (y : Int) {m mp : Int} (hm : 1 ≤ m ∧ m ≤ 12) (hfeb : m ≠ 2)
    (hmp : mp = if m > 2 then m - 3 else m + 9) :
    daysInMonth y m = (153 * (mp + 1) + 2) / 5 - (153 * mp + 2) / 5 := by
  have hmp0 : 0 ≤ mp := by omega
  have hmp10 : mp ≤ 10 := by omega
  rw [daysInMonth, if_neg hfeb]
  interval_cases mp <;> omega

/-- A date is valid exactly when its day k of the March-based year lies in its own month, and k reaches 365 only
on the 29 February of a leap year. -/
theorem validDate_iff_marchDay (y : Int) {m d mp k : Int} (hm : 1 ≤ m ∧ m ≤ 12)
    (hmp : mp = if m > 2 then m - 3 else m + 9) (hk : k = (153 * mp + 2) / 5 + d - 1) :
    validDate y m d = true ↔ (5 * k + 2) / 153 = mp ∧ k ≤ 365 ∧ (k = 365 → leapYear y = true) := by
  rw [validDate_iff]
  by_cases hfeb : m = 2
  · subst hfeb
    rw [daysInMonth_february]
    cases leapYear y <;> simp <;> omega
  · rw [daysInMonth_of_ne_february y hm hfeb hmp]
    constructor
    · rintro ⟨-, -, hd1, hd⟩
      exact ⟨by omega, by omega, fun hk365 => absurd hk365 (by omega)⟩
    · rintro ⟨hmonth, -, -⟩
      omega

/-- A year as era, century, four-year cycle and year. -/
theorem year_parts (y : Int) :
    ∃ era c q r : Int, (0 ≤ c ∧ c ≤ 3) ∧ (0 ≤ q ∧ q ≤ 24) ∧ (0 ≤ r ∧ r ≤ 3) ∧
      y = 400 * era + (100 * c + 4 * q + r) :=
  ⟨y / 400, y % 400 / 100, y % 100 / 4, y % 4, by omega⟩

/-- R60's date of a day is valid, and R59 gives the day back. -/
theorem civilFromDays_spec (z : Int) :
    validDate (civilFromDays z).year (civilFromDays z).month (civilFromDays z).day = true
      ∧ daysFromCivil (civilFromDays z).year (civilFromDays z).month (civilFromDays z).day = z := by
  obtain ⟨era, c, q, r, k, hc, hq, hr, hk, hlast, hz⟩ := day_parts z
  rw [civilFromDays_of_parts z era c q r k hc hq hr hk hlast hz]
  obtain ⟨mp, hmp⟩ : ∃ mp, mp = (5 * k + 2) / 153 := ⟨_, rfl⟩
  obtain ⟨m, hm⟩ : ∃ m, m = if mp < 10 then mp + 3 else mp - 9 := ⟨_, rfl⟩
  have hmp_of_m : mp = if m > 2 then m - 3 else m + 9 := by omega
  have hyear : (if mp < 10 then 0 else 1 : Int) = if m ≤ 2 then 1 else 0 := by omega
  rw [← hmp, ← hm, hyear]
  dsimp only
  constructor
  · refine (validDate_iff_marchDay _ (by omega) hmp_of_m (k := k) (by omega)).2 ⟨hmp.symm, hk.2, fun hk365 => ?_⟩
    rw [if_pos (by omega)]
    exact (leapYear_of_parts era c q r hc hq hr).2 (hlast hk365)
  · rw [daysFromCivil_of_parts era c q r m _ hc hq hr _ rfl, ← hmp_of_m]
    omega

/-- R59's day of a valid date, and R60 gives the date back. -/
theorem civilFromDays_daysFromCivil {y m d : Int} (h : validDate y m d = true) :
    civilFromDays (daysFromCivil y m d) = { year := y, month := m, day := d } := by
  obtain ⟨hm1, hm12, hd, -⟩ := (validDate_iff y m d).1 h
  obtain ⟨era, c, q, r, hc, hq, hr, hparts⟩ := year_parts (y - if m ≤ 2 then 1 else 0)
  obtain ⟨mp, hmp⟩ : ∃ mp, mp = if m > 2 then m - 3 else m + 9 := ⟨_, rfl⟩
  obtain ⟨k, hk⟩ : ∃ k, k = (153 * mp + 2) / 5 + d - 1 := ⟨_, rfl⟩
  obtain ⟨hmonth, hk365, hleap⟩ := (validDate_iff_marchDay y ⟨hm1, hm12⟩ hmp hk).1 h
  have hy : y = 400 * era + (100 * c + 4 * q + r) + if m ≤ 2 then 1 else 0 := by omega
  have hlast : k = 365 → r = 3 ∧ (q < 24 ∨ c = 3) := by
    intro hk'
    have hfeb : m ≤ 2 := by omega
    rw [← leapYear_of_parts era c q r hc hq hr]
    simpa [hy, hfeb] using hleap hk'
  have hz := daysFromCivil_of_parts era c q r m d hc hq hr y hy
  rw [← hmp, ← hk] at hz
  rw [civilFromDays_of_parts _ era c q r k hc hq hr (by omega) hlast (by omega), hmonth, CivilDate.mk.injEq]
  omega

/-- Settles O24: by the parts of the day number one way, of the March-based year the other. -/
theorem civilFromDaysIsUniqueInverse : Obligations.CivilFromDaysIsUniqueInverse :=
  ⟨civilFromDays_spec, fun _ _ _ => civilFromDays_daysFromCivil⟩

end Sys2Proof.Machine
end

section
/-! The second modulator (spec/42_second_modulator.md R73 to R78): the second classifier, the bit slicer, the
symbol of a second, and GET_MODULATION with and without a prepared frame. -/

namespace Sys2Proof.Machine

/-! ## The second classifier (R74) -/

theorem classify_eq_marker_iff (n : Nat) : classify n = .marker ↔ n = 0 ∨ n % 10 = 9 ∨ 59 < n := by
  refine ⟨fun hmarker => ?_, classify_marker_of⟩
  by_contra hout
  have hdata : classify n = .data := classify_data_of (by omega) (by omega) (by omega)
  rw [hdata] at hmarker
  cases hmarker

theorem classify_eq_data_iff (n : Nat) : classify n = .data ↔ 1 ≤ n ∧ n ≤ 58 ∧ n % 10 ≠ 9 := by
  refine ⟨fun hdata => ?_, fun ⟨hlow, hhigh, hnine⟩ => classify_data_of hlow hhigh hnine⟩
  by_contra hout
  have hmarker : classify n = .marker := classify_marker_of (by omega)
  rw [hmarker] at hdata
  cases hdata

/-- Settles O32: the rule is the classifier's equivalence; the 60 seconds of a minute are counted. -/
theorem secondClassifierRule : Obligations.SecondClassifierRule :=
  ⟨classify_eq_marker_iff, by decide, by decide⟩

/-! ## The bit slicer (R75) -/

theorem sliceBit_eq_getLsbD_shift (f : Frame) (n : Nat) : sliceBit f n = (f >>> (59 - n)).getLsbD 0 := by
  rw [sliceBit, BitVec.getLsbD_ushiftRight, Nat.add_zero]

/-- Settles O33: a data second lies in 1..58, so `59 - n` does. -/
theorem bitSlicerStaysInsideTheFrame : Obligations.BitSlicerStaysInsideTheFrame := by
  intro f n hdata
  obtain ⟨hlow, hhigh, -⟩ := (classify_eq_data_iff n).1 hdata
  exact ⟨hhigh, by omega, by omega, sliceBit_eq_getLsbD_shift f n⟩

/-! ## The symbol of a second (R76) -/

theorem secondSymbol_of_marker (f : Frame) {n : Nat} (h : classify n = .marker) : secondSymbol f n = .marker := by
  simp [secondSymbol, h]

theorem secondSymbol_of_data (f : Frame) {n : Nat} (h : classify n = .data) :
    secondSymbol f n = bitSymbol (f.getLsbD (59 - n)) := by
  simp [secondSymbol, h, sliceBit]

/-- Settles O34: the three rows are the scheduler's values, and a data second has the symbol of its bit. -/
theorem amplitudeScheduleTable : Obligations.AmplitudeScheduleTable := by
  refine ⟨rfl, rfl, rfl, fun f _ => secondSymbol_of_marker f, fun f _ hdata hset => ?_, fun f _ hdata hclear => ?_⟩
  · rw [secondSymbol_of_data f hdata, hset, bitSymbol]
  · rw [secondSymbol_of_data f hdata, hclear, bitSymbol]

/-! ## GET_MODULATION of a marker second, and of a data second with nothing prepared (R73, R78) -/

theorem symbolWord_marker : symbolWord .marker = 0x006410000 := by decide

theorem getModulation_of_marker {n : Nat} (h : classify n = .marker) (s : State) :
    getModulation n s = respond (encode (.getmod n)) (symbolWord .marker) s := by
  simp [getModulation, h]

theorem getModulation_of_data_invalid {n : Nat} {s : State} (h : classify n = .data) (hv : s.frameValid = false) :
    getModulation n s = raiseFault .unprepared (encode (.getmod n)) s := by
  simp [getModulation, h, readFrame_of_invalid hv]

/-- Settles O30: a data second finds no frame and is the fault entry of F_UNPREPARED, a marker second reads none. -/
theorem getmodUnpreparedRaisesFault : Obligations.GetmodUnpreparedRaisesFault := by
  intro n s hnone hinvalid
  constructor
  · intro hlow hhigh hnine
    rw [exec_getmod_of_none hnone, getModulation_of_data_invalid (classify_data_of hlow hhigh hnine) hinvalid]
    rfl
  · intro hmarker
    rw [exec_getmod_of_none hnone, getModulation_of_marker (classify_marker_of hmarker)]
    exact ⟨_, _, rfl, hnone, respond_responses .., symbolWord_marker⟩

end Sys2Proof.Machine
end

section
/-! The faults (spec/60_exceptions.md R83, R86): what each command records, and the causes of the three faults. -/

namespace Sys2Proof

/-- R51: a command carries back the word it was decoded from. -/
theorem encode_of_decode {w : CmdWord} {i : Instr} (h : decode w = .instr i) : encode i = w := by
  obtain ⟨hopc, hdec⟩ | ⟨hopc, hdec⟩ | ⟨-, -, hdec⟩ := decode_cases w <;> rw [hdec] at h <;> cases h
  · calc packCommand opcPrepare (BitVec.ofInt 64 (operandOf w).toInt)
      _ = packCommand (opcOf w) (operandOf w) := by rw [hopc, BitVec.ofInt_toInt]
      _ = w := packCommand_fields w
  · calc packCommand opcGetmod (BitVec.ofNat 64 (operandOf w).toNat)
      _ = packCommand (opcOf w) (operandOf w) := by rw [hopc, BitVec.ofNat_toNat, BitVec.setWidth_eq]
      _ = w := packCommand_fields w

namespace Machine

/-! ## What an accepted command records -/

theorem prepareMinute_faultCode {s : State} (h : s.faultCode = .none) (ts : TimeServices) (t : Int) :
    (prepareMinute ts t s).faultCode = if inDomain t = false then .domain else .none := by
  obtain ⟨hdom, heq⟩ | ⟨hdom, heq⟩ := prepareMinute_cases ts t s <;> simp [heq, hdom, h]

theorem prepareMinute_faultCmd {s : State} (h : s.faultCode = .none) (ts : TimeServices) (t : Int)
    (hfault : (prepareMinute ts t s).faultCode ≠ .none) :
    (prepareMinute ts t s).faultCmd = some (encode (.prepare t)) := by
  obtain ⟨-, heq⟩ | ⟨-, heq⟩ := prepareMinute_cases ts t s
  · exact absurd (by rw [heq, writeFrame_faultCode, h]) hfault
  · rw [heq, raiseFault_faultCmd]

/-- Where `FRAME_VALID` and `FRAME` agree, a read finds no frame exactly while `FRAME_VALID = 0`. -/
theorem State.Inv.readFrame_eq_none_iff {s : State} (h : s.Inv) : readFrame s = none ↔ s.frameValid = false := by
  refine ⟨fun hread => ?_, readFrame_of_invalid⟩
  by_contra hvalid
  rw [Bool.not_eq_false] at hvalid
  obtain ⟨f, hf⟩ := Option.isSome_iff_exists.1 (h.valid_iff.1 hvalid)
  simp [readFrame_of_valid hvalid hf] at hread

theorem getModulation_faultCode {s : State} (h : s.faultCode = .none) (n : Nat) :
    (getModulation n s).faultCode
      = if classify n = .data ∧ readFrame s = none then .unprepared else .none := by
  obtain ⟨hclass, heq⟩ | ⟨hclass, f, hread, heq⟩ | ⟨hclass, hread, heq⟩ := getModulation_cases n s
  · simp [heq, hclass, h]
  · simp [heq, hread, h]
  · simp [heq, hclass, hread]

theorem getModulation_faultCmd {s : State} (h : s.faultCode = .none) (n : Nat)
    (hfault : (getModulation n s).faultCode ≠ .none) :
    (getModulation n s).faultCmd = some (encode (.getmod n)) := by
  obtain ⟨-, heq⟩ | ⟨-, f, -, heq⟩ | ⟨-, -, heq⟩ := getModulation_cases n s
  · exact absurd (by rw [heq, respond_faultCode, h]) hfault
  · exact absurd (by rw [heq, respond_faultCode, h]) hfault
  · rw [heq, raiseFault_faultCmd]

/-! ## The causes (R83) -/

/-- Settles O42: the word's opcode leaves one fault possible, and the invariant makes a read without a frame
the same as `FRAME_VALID = 0`. -/
theorem faultCodesAndCauses : Obligations.FaultCodesAndCauses := by
  refine ⟨⟨rfl, rfl, rfl, rfl⟩, fun s w rest hinv hnone hpend => ?_⟩
  have hnone' : (withPending rest s).faultCode = .none := hnone
  rw [step_of_command hpend, takeCommand_of_none hnone']
  obtain ⟨hopc, hdec⟩ | ⟨hopc, hdec⟩ | ⟨hprep, hget, hdec⟩ := decode_cases w <;>
    refine ⟨_, rfl, ?_⟩ <;> simp only [hdec]
  · have hcmd := prepareMinute_faultCmd hnone' Config.timeServices (operandOf w).toInt
    rw [encode_of_decode hdec] at hcmd
    refine ⟨?_, ?_, ?_, hcmd⟩ <;>
      simp [prepareMinute_faultCode hnone', ite_eq_iff, ← inDomain_eq_false_iff, hopc, opcPrepare]
  · have hread : readFrame (withPending rest s) = none ↔ s.frameValid = false := hinv.readFrame_eq_none_iff
    have hcmd := getModulation_faultCmd hnone' (operandOf w).toNat
    rw [encode_of_decode hdec] at hcmd
    refine ⟨?_, ?_, ?_, hcmd⟩ <;> simp [getModulation_faultCode hnone', ite_eq_iff, hread, hopc, opcGetmod]
  · exact ⟨iff_of_true rfl ⟨hprep, hget⟩, iff_of_false (by simp) fun ⟨hopc, _⟩ => hprep hopc,
      iff_of_false (by simp) fun ⟨hopc, _⟩ => hget hopc, fun _ => rfl⟩

end Machine

end Sys2Proof
end

section
/-! Reset (spec/70_reset_and_hazards.md R97). -/

namespace Sys2Proof.Machine

/-- Settles O8: a reset event leaves `resetRegisters`, whose four registers hold what they hold at power-up. -/
theorem resetSetsEveryRegister : Obligations.ResetSetsEveryRegister := by
  refine ⟨⟨reset_frame, reset_frameValid, reset_faultCode, reset_faultCmd⟩, fun s rest hpend => ?_⟩
  exact ⟨resetRegisters (withPending rest s), step_of_reset hpend, resetRegisters_frame _,
    resetRegisters_frameValid _, resetRegisters_faultCode _, resetRegisters_faultCmd _⟩

end Sys2Proof.Machine
end

section
/-! The command-word encoding (spec/30_encoding.md R43 to R45, R51): decoding and encoding are inverse. -/

namespace Sys2Proof

theorem decode_of_opcPrepare {w : CmdWord} (h : opcOf w = opcPrepare) :
    decode w = .instr (.prepare (operandOf w).toInt) := by
  simp [decode, h]

theorem decode_of_opcGetmod {w : CmdWord} (h : opcOf w = opcGetmod) :
    decode w = .instr (.getmod (operandOf w).toNat) := by
  simp [decode, h, show opcGetmod ≠ opcPrepare by decide]

/-- R44: an instant of the operand's range is read back from its two's complement pattern. -/
theorem toInt_operand_prepare {t : Int} (h : (Instr.prepare t).wellFormed = true) :
    (Instr.prepare t).operand.toInt = t := by
  simp only [Instr.wellFormed, Bool.and_eq_true, decide_eq_true_eq] at h
  exact BitVec.toInt_ofInt_eq_self (by decide) (by omega) (by omega)

/-- R45: a second of the operand's range is read back from its unsigned pattern. -/
theorem toNat_operand_getmod {n : Nat} (h : (Instr.getmod n).wellFormed = true) :
    (Instr.getmod n).operand.toNat = n := by
  simp only [Instr.wellFormed, decide_eq_true_eq] at h
  exact Nat.mod_eq_of_lt h

theorem decode_encode {i : Instr} (h : i.wellFormed = true) : decode (encode i) = .instr i := by
  cases i with
  | prepare t =>
    rw [decode_of_opcPrepare (opcOf_encode _), operandOf_encode, toInt_operand_prepare h]
  | getmod n =>
    rw [decode_of_opcGetmod (opcOf_encode _), operandOf_encode, toNat_operand_getmod h]

/-- Settles O2: the opcode selects the command and its operand is read back in the operand's range. -/
theorem decodeOfEncodeIsIdentity : Obligations.DecodeOfEncodeIsIdentity := fun _ => decode_encode

theorem wellFormed_prepare_toInt (x : BitVec 64) : (Instr.prepare x.toInt).wellFormed = true := by
  have low := x.le_toInt
  have high := x.toInt_lt
  simp only [Instr.wellFormed, Bool.and_eq_true, decide_eq_true_eq]
  omega

theorem wellFormed_getmod_toNat (x : BitVec 64) : (Instr.getmod x.toNat).wellFormed = true :=
  decide_eq_true x.isLt

theorem wellFormed_of_decode {w : CmdWord} {i : Instr} (h : decode w = .instr i) : i.wellFormed = true := by
  obtain ⟨-, hdec⟩ | ⟨-, hdec⟩ | ⟨-, -, hdec⟩ := decode_cases w <;> rw [hdec] at h <;> cases h
  · exact wellFormed_prepare_toInt _
  · exact wellFormed_getmod_toNat _

/-- Settles O3: the word is packed again from its own fields, whose operand is in range by its width. -/
theorem encodeOfDecodeIsIdentity : Obligations.EncodeOfDecodeIsIdentity := fun _ _ h =>
  ⟨encode_of_decode h, wellFormed_of_decode h⟩

/-- Settles O1: each word's opcode is read, then its operand where it has one. -/
theorem vectorWordsDecode : Obligations.VectorWordsDecode := by
  unfold Obligations.VectorWordsDecode
  decide

namespace Machine

/-- Settles O57: the condition of `hostSecond` is the operand's range. -/
theorem negativeSecondHasNoCommand : Obligations.NegativeSecondHasNoCommand := by
  intro i
  unfold hostSecond
  refine ⟨fun hneg => if_neg (by omega), fun c hc => ?_, fun hlow hhigh => if_pos ⟨hlow, hhigh⟩⟩
  split at hc
  · next hrange =>
    cases hc
    exact ⟨decide_eq_true (by omega), rfl, by omega⟩
  · cases hc

end Machine

end Sys2Proof
end

section
/-! The calendar (spec/41_frame_encoder.md R58 to R61, R64): lengths of years and months, the calendar successor,
the ranges of the extracted fields, and what of an instant the fields hold. -/

namespace Sys2Proof.Machine

/-! ## Day numbers by March-based year (R59) -/

/-- The day number of 1 March of a year. -/
def marchFirst (y : Int) : Int :=
  146097 * (y / 400) + (365 * (y % 400) + y % 400 / 4 - y % 400 / 100) - 719468

/-- R59 as the start of the March-based year, the start of the month in it, and the day. -/
theorem daysFromCivil_eq_marchFirst (y m d : Int) :
    daysFromCivil y m d = marchFirst (y - if m ≤ 2 then 1 else 0)
      + (153 * (if m > 2 then m - 3 else m + 9) + 2) / 5 + d - 1 := by
  have hyoe : ∀ y2 : Int, y2 - y2 / 400 * 400 = y2 % 400 := by omega
  simp only [daysFromCivil, marchFirst, hyoe]
  ring

/-- The March-based year that ends in a leap year has a 29 February. -/
theorem marchFirst_sub_pred (y : Int) : marchFirst y - marchFirst (y - 1) = if leapYear y then 366 else 365 := by
  unfold marchFirst
  split_ifs with hleap <;> rw [leapYear_iff] at hleap <;> omega

theorem daysFromCivil_add_days (y m d k : Int) : daysFromCivil y m (d + k) = daysFromCivil y m d + k := by
  simp only [daysFromCivil_eq_marchFirst]
  ring

/-- January and February belong to the March-based year before. -/
theorem daysFromCivil_january (y : Int) : daysFromCivil y 1 1 = marchFirst (y - 1) + 306 := by
  rw [daysFromCivil_eq_marchFirst]
  simp

/-- Settles O23: the two years' 1 January lie in March-based years that follow each other. -/
theorem yearLengthMatchesLeapRule : Obligations.YearLengthMatchesLeapRule := by
  intro y
  rw [← marchFirst_sub_pred, daysFromCivil_january, daysFromCivil_january, add_sub_cancel_right,
    add_sub_add_right_eq_sub]

/-- The first of the next month is the month's length later. -/
theorem daysFromCivil_next_month (y : Int) {m : Int} (h1 : 1 ≤ m) (h11 : m ≤ 11) :
    daysFromCivil y (m + 1) 1 = daysFromCivil y m 1 + daysInMonth y m := by
  have hyear := marchFirst_sub_pred y
  simp only [daysFromCivil_eq_marchFirst]
  by_cases hfeb : m = 2
  · subst hfeb
    rw [daysInMonth_february]
    split at hyear <;> simp_all <;> omega
  · rw [daysInMonth_of_ne_february y ⟨h1, by omega⟩ hfeb rfl]
    rcases lt_or_gt_of_ne hfeb with hlow | hhigh
    · obtain rfl : m = 1 := by omega
      simp
      ring
    · rw [if_neg (by omega), if_pos (by omega), if_neg (by omega), if_pos hhigh, show m + 1 - 3 = m - 3 + 1 by ring]
      ring

/-- 1 January follows 31 December. -/
theorem daysFromCivil_next_year (y : Int) : daysFromCivil (y + 1) 1 1 = daysFromCivil y 12 31 + 1 := by
  rw [daysFromCivil_january, daysFromCivil_eq_marchFirst]
  simp
  ring

/-! ## The calendar successor (R12) -/

theorem daysInMonth_bounds (y m : Int) : 28 ≤ daysInMonth y m ∧ daysInMonth y m ≤ 31 := by
  unfold daysInMonth
  split_ifs <;> decide

theorem daysInMonth_december (y : Int) : daysInMonth y 12 = 31 := by simp [daysInMonth]

/-- The successor of a valid date is a valid date, one day later. -/
theorem nextDate_spec {c : CivilDate} (h : validDate c.year c.month c.day = true) :
    validDate (nextDate c).year (nextDate c).month (nextDate c).day = true
      ∧ daysFromCivil (nextDate c).year (nextDate c).month (nextDate c).day
          = daysFromCivil c.year c.month c.day + 1 := by
  obtain ⟨hm1, hm12, hd1, hd⟩ := (validDate_iff ..).1 h
  unfold nextDate
  split_ifs with hday hmonth
  · exact ⟨(validDate_iff ..).2 ⟨hm1, hm12, by dsimp only; omega, hday⟩, daysFromCivil_add_days ..⟩
  · have hlen := daysInMonth_bounds c.year (c.month + 1)
    have hlast : c.day = 1 + (daysInMonth c.year c.month - 1) := by omega
    refine ⟨(validDate_iff ..).2 (by dsimp only; omega), ?_⟩
    dsimp only
    rw [daysFromCivil_next_month _ hm1 (by omega), hlast, daysFromCivil_add_days]
    ring
  · have hdec : c.month = 12 := by omega
    have hlast : c.day = 31 := by
      rw [hdec, daysInMonth_december] at hd hday
      omega
    have hlen := daysInMonth_bounds (c.year + 1) 1
    refine ⟨(validDate_iff ..).2 (by dsimp only; omega), ?_⟩
    rw [hdec, hlast]
    exact daysFromCivil_next_year _

/-- Settles O25: day z + 1 is the day number of the successor of day z's date, and a valid date is the only one of
its day number. -/
theorem dayNumbersFollowTheCalendar : Obligations.DayNumbersFollowTheCalendar := by
  refine ⟨by decide, fun z => ?_⟩
  obtain ⟨hvalid, hday⟩ := civilFromDays_spec z
  obtain ⟨hvalid', hday'⟩ := nextDate_spec hvalid
  rw [hday] at hday'
  rw [← hday', civilFromDays_daysFromCivil hvalid']

/-! ## Ranges of the fields (R61) -/

/-- The days from 1 January to a date that is day k of its March-based year. -/
theorem daysFromCivil_sub_january (y : Int) {m d mp k : Int} (hmp : mp = if m > 2 then m - 3 else m + 9)
    (hk : k = (153 * mp + 2) / 5 + d - 1) :
    daysFromCivil y m d - daysFromCivil y 1 1
      = k - 306 + if m ≤ 2 then 0 else if leapYear y then 366 else 365 := by
  rw [← marchFirst_sub_pred, daysFromCivil_january, daysFromCivil_eq_marchFirst, ← hmp, hk]
  split_ifs
  · ring
  · rw [sub_zero]
    ring

/-- A date lies in its year, and is its 366th day exactly on 31 December of a leap year. -/
theorem dayOfYear_of_validDate {y m d : Int} (h : validDate y m d = true) :
    0 ≤ daysFromCivil y m d - daysFromCivil y 1 1
      ∧ daysFromCivil y m d - daysFromCivil y 1 1 < (if leapYear y then 366 else 365)
      ∧ (daysFromCivil y m d - daysFromCivil y 1 1 = 365 ↔ leapYear y = true ∧ m = 12 ∧ d = 31) := by
  obtain ⟨hm1, hm12, -⟩ := (validDate_iff ..).1 h
  obtain ⟨mp, hmp⟩ : ∃ mp, mp = if m > 2 then m - 3 else m + 9 := ⟨_, rfl⟩
  obtain ⟨k, hk⟩ : ∃ k, k = (153 * mp + 2) / 5 + d - 1 := ⟨_, rfl⟩
  obtain ⟨hmonth, hk365, -⟩ := (validDate_iff_marchDay y ⟨hm1, hm12⟩ hmp hk).1 h
  rw [daysFromCivil_sub_january y hmp hk]
  by_cases hfeb : m ≤ 2
  · have hlen : (if leapYear y then 366 else 365 : Int) ≥ 365 := by split_ifs <;> decide
    rw [if_pos hfeb]
    omega
  · rw [if_neg hfeb]
    cases leapYear y <;> simp <;> omega

theorem utcDate_valid (t : Int) : validDate (utcDate t).year (utcDate t).month (utcDate t).day = true :=
  (civilFromDays_spec _).1

theorem daysFromCivil_utcDate (t : Int) :
    daysFromCivil (utcDate t).year (utcDate t).month (utcDate t).day = dayNumber t :=
  (civilFromDays_spec _).2

theorem marchFirst_monotone : Monotone marchFirst := by
  refine monotone_int_of_le_succ fun y => ?_
  have hyear := marchFirst_sub_pred (y + 1)
  rw [add_sub_cancel_right] at hyear
  split_ifs at hyear <;> omega

/-- A valid date lies between 1 January of its year and of the next. -/
theorem daysFromCivil_bounds {y m d : Int} (h : validDate y m d = true) :
    marchFirst (y - 1) + 306 ≤ daysFromCivil y m d ∧ daysFromCivil y m d ≤ marchFirst y + 305 := by
  obtain ⟨hfirst, hlast, -⟩ := dayOfYear_of_validDate h
  rw [daysFromCivil_january] at hfirst hlast
  rw [← marchFirst_sub_pred] at hlast
  omega

/-- The dates of the years 1 to 9999 are those whose days are in the domain. -/
theorem year_bounds_iff_day_bounds {y m d : Int} (h : validDate y m d = true) :
    (1 ≤ y ∧ y ≤ 9999) ↔ (-719162 ≤ daysFromCivil y m d ∧ daysFromCivil y m d ≤ 2932896) := by
  obtain ⟨hfirst, hlast⟩ := daysFromCivil_bounds h
  have hzero : marchFirst 0 = -719468 := by decide
  have hend : marchFirst 9999 = 2932591 := by decide
  constructor
  · rintro ⟨hlow, hhigh⟩
    have := marchFirst_monotone (show 0 ≤ y - 1 by omega)
    have := marchFirst_monotone hhigh
    omega
  · rintro ⟨hlow, hhigh⟩
    constructor <;> by_contra hout
    · have := marchFirst_monotone (show y ≤ 0 by omega)
      omega
    · have := marchFirst_monotone (show 9999 ≤ y - 1 by omega)
      omega

theorem utcHour_bounds (t : Int) : 0 ≤ utcHour t ∧ utcHour t ≤ 23 := by
  unfold utcHour secondOfDay
  omega

theorem utcMinute_bounds (t : Int) : 0 ≤ utcMinute t ∧ utcMinute t ≤ 59 := by
  unfold utcMinute secondOfDay
  omega

theorem yearOfCentury_bounds (y : Int) : 0 ≤ yearOfCentury y ∧ yearOfCentury y ≤ 99 := by
  unfold yearOfCentury
  omega

theorem utcDate_year_bounds {t : Int} (h : inDomain t = true) :
    1 ≤ (utcDate t).year ∧ (utcDate t).year ≤ 9999 := by
  obtain ⟨hlow, hhigh⟩ := (inDomain_iff t).1 h
  rw [year_bounds_iff_day_bounds (utcDate_valid t), daysFromCivil_utcDate, dayNumber]
  omega

/-- `yday` counts from 1 January of the date's year, whatever the instant. -/
theorem utcYday_spec (t : Int) :
    1 ≤ utcYday t ∧ utcYday t ≤ (if leapYear (utcDate t).year then 366 else 365)
      ∧ (utcYday t = 366 ↔ leapYear (utcDate t).year = true ∧ (utcDate t).month = 12 ∧ (utcDate t).day = 31) := by
  obtain ⟨hfirst, hlast, hend⟩ := dayOfYear_of_validDate (utcDate_valid t)
  rw [daysFromCivil_utcDate] at hfirst hlast hend
  rw [← hend, utcYday]
  omega

/-- Settles O26: the year by the day numbers of the domain, the day of the year by the date's place in its year. -/
theorem calendarFieldRanges : Obligations.CalendarFieldRanges := by
  intro t hdom
  obtain ⟨hm1, hm12, hd1, hd⟩ := (validDate_iff ..).1 (utcDate_valid t)
  have hlen := daysInMonth_bounds (utcDate t).year (utcDate t).month
  obtain ⟨hy1, hy2⟩ := utcDate_year_bounds hdom
  obtain ⟨hh1, hh2⟩ := utcHour_bounds t
  obtain ⟨hmi1, hmi2⟩ := utcMinute_bounds t
  obtain ⟨hc1, hc2⟩ := yearOfCentury_bounds (utcDate t).year
  exact ⟨hy1, hy2, hm1, hm12, hd1, by omega, hh1, hh2, hmi1, hmi2, hc1, hc2, utcYday_spec t⟩

/-! ## The fields and their instant (R58, R72) -/

/-- Settles O27: the date gives the day number back, and the rest is division by 86400, 3600 and 60. -/
theorem utcFieldsRebuildInstant : Obligations.UtcFieldsRebuildInstant := by
  intro t
  obtain ⟨hh1, hh2⟩ := utcHour_bounds t
  obtain ⟨hmi1, hmi2⟩ := utcMinute_bounds t
  refine ⟨?_, hh1, hh2, hmi1, hmi2, rfl⟩
  rw [daysFromCivil_utcDate]
  unfold dayNumber utcHour utcMinute secondOfDay
  omega

theorem dayNumber_eq_of_minute (t : Int) : dayNumber t = t / 60 / 1440 := by
  unfold dayNumber
  omega

theorem utcHour_eq_of_minute (t : Int) : utcHour t = t / 60 % 1440 / 60 := by
  unfold utcHour secondOfDay
  omega

theorem utcMinute_eq_of_minute (t : Int) : utcMinute t = t / 60 % 60 := by
  unfold utcMinute secondOfDay
  omega

/-! ## The instant of an ISO literal (R53) -/

theorem isoInstant_eq_none_iff (y m d h mi sec : Nat) :
    isoInstant y m d h mi sec = none ↔
      ¬(1 ≤ y ∧ y ≤ 9999 ∧ validDate y m d = true ∧ h ≤ 23 ∧ mi ≤ 59 ∧ sec ≤ 59) := by
  simp [isoInstant]

/-- Settles O55: the day of a valid date has that date, and a time of day is below 86400. -/
theorem isoLiteralNamesItsInstant : Obligations.IsoLiteralNamesItsInstant := by
  intro y m d h mi sec
  refine ⟨isoInstant_eq_none_iff .., fun t ht => ?_⟩
  unfold isoInstant at ht
  split at ht
  · next hfields =>
    obtain ⟨hy1, hy2, hvalid, hh, hmi, hsec⟩ := hfields
    obtain ⟨hlow, hhigh⟩ := (year_bounds_iff_day_bounds hvalid).1 (by omega)
    have ht' := (Option.some.inj ht).symm
    have hday : dayNumber t = daysFromCivil y m d := by
      unfold dayNumber
      omega
    refine ⟨ht', (inDomain_iff t).2 (by omega), ?_, ?_, ?_, by omega⟩
    · rw [utcDate, hday, civilFromDays_daysFromCivil hvalid]
    · unfold utcHour secondOfDay
      omega
    · unfold utcMinute secondOfDay
      omega
  · cases ht

end Sys2Proof.Machine
end

section
/-! The bits of the assembled frame (spec/41_frame_encoder.md R62, R63, R68, R70, R72; spec/10_state.md R14): where
each field lies, which bits can be 1, and how a receiver reads the fields back. -/

namespace Sys2Proof.Machine

/-! ## Padded BCD by bits and by bounds (R62, R63) -/

theorem paddedBcd_testBit (n j : Nat) :
    (paddedBcd n).testBit j
      = if j < 5 then (n % 10).testBit j
        else if j < 10 then (n / 10 % 10).testBit (j - 5) else (n / 100 % 10).testBit (j - 10) := by
  have above : ∀ {d i : Nat}, d < 10 → 5 ≤ i → d.testBit i = false := fun hd hi =>
    Nat.testBit_lt_two_pow (lt_of_lt_of_le (show _ < 2 ^ 4 by omega) (Nat.pow_le_pow_right (by decide) (by omega)))
  have ones : n % 10 < 10 := Nat.mod_lt _ (by decide)
  have tens : n / 10 % 10 < 10 := Nat.mod_lt _ (by decide)
  simp only [paddedBcd, Nat.testBit_or, Nat.testBit_shiftLeft]
  split_ifs with h5 h10
  · simp [show ¬ 10 ≤ j by omega, show ¬ 5 ≤ j by omega]
  · simp [show ¬ 10 ≤ j by omega, show 5 ≤ j by omega, above ones (show 5 ≤ j by omega)]
  · simp [show 10 ≤ j by omega, above ones (show 5 ≤ j by omega), above tens (show 5 ≤ j - 5 by omega)]

theorem paddedBcd_le_of_le_59 {n : Nat} (h : n ≤ 59) : paddedBcd n ≤ 0xA9 := by
  rw [paddedBcd_eq_sum]
  omega

theorem paddedBcd_le_of_le_23 {n : Nat} (h : n ≤ 23) : paddedBcd n ≤ 0x43 := by
  rw [paddedBcd_eq_sum]
  omega

theorem paddedBcd_le_of_le_366 {n : Nat} (h : n ≤ 366) : paddedBcd n ≤ 0xCC6 := by
  rw [paddedBcd_eq_sum]
  omega

theorem paddedBcd_le_of_le_99 {n : Nat} (h : n ≤ 99) : paddedBcd n ≤ 0x129 := by
  rw [paddedBcd_eq_sum]
  omega

/-- Settles O21: the lanes hold the digits, and each range bounds the digits. -/
theorem paddedBcdRoundTripsWithinWidths : Obligations.PaddedBcdRoundTripsWithinWidths := by
  refine ⟨fun n hn => ?_, fun _ => paddedBcd_le_of_le_59, fun _ => paddedBcd_le_of_le_23,
    fun _ => paddedBcd_le_of_le_366, fun _ => paddedBcd_le_of_le_99⟩
  obtain ⟨hones, htens, hhundreds, -⟩ := paddedBcdPlacesDigits n hn
  rw [hones, htens, hhundreds, show n / 100 = n / 10 / 10 from (Nat.div_div_eq_div_mul n 10 10).symm]
  omega

/-! ## The fields in the frame (R68) -/

/-- The fields of a minute are in the ranges of R61, which their places in the frame are made for. -/
structure FieldsFit (minute hour yday yoc : Nat) : Prop where
  minute_le : minute ≤ 59
  hour_le : hour ≤ 23
  yday_le : yday ≤ 366
  yoc_le : yoc ≤ 99

/-- R61's ranges hold for every instant, inside the domain or not. -/
theorem fieldsFit (t : Int) :
    FieldsFit (utcMinute t).toNat (utcHour t).toNat (utcYday t).toNat (yearOfCentury (utcDate t).year).toNat := by
  have hminute := utcMinute_bounds t
  have hhour := utcHour_bounds t
  have hyoc := yearOfCentury_bounds (utcDate t).year
  obtain ⟨-, hyday, -⟩ := utcYday_spec t
  have hlen : (if leapYear (utcDate t).year then 366 else 365 : Int) ≤ 366 := by split_ifs <;> decide
  constructor <;> omega

theorem testBit_shiftLeft_of_lt {i k : Nat} (h : k < i) (x : Nat) : (x <<< i).testBit k = false := by
  rw [Nat.testBit_shiftLeft, decide_eq_false (by omega), Bool.false_and]

theorem testBit_shiftLeft_of_le {i k : Nat} (h : i ≤ k) (x : Nat) : (x <<< i).testBit k = x.testBit (k - i) := by
  rw [Nat.testBit_shiftLeft, decide_eq_true h, Bool.true_and]

theorem testBit_of_lt_two_pow_of_le {x w k : Nat} (hx : x < 2 ^ w) (hk : w ≤ k) : x.testBit k = false :=
  Nat.testBit_lt_two_pow (lt_of_lt_of_le hx (Nat.pow_le_pow_right (by decide) hk))

/-- The gaps between the lanes, and what lies past the width, hold no bit (R62). -/
theorem paddedBcd_testBit_eq_false {n w j : Nat} (hw : paddedBcd n < 2 ^ w) (hj : j = 4 ∨ j = 9 ∨ w ≤ j) :
    (paddedBcd n).testBit j = false := by
  obtain rfl | rfl | hout := hj
  · rw [paddedBcd_testBit, if_pos (by decide)]
    exact testBit_of_lt_two_pow_of_le (w := 4) (by omega) (by decide)
  · rw [paddedBcd_testBit, if_neg (by decide), if_pos (by decide)]
    exact testBit_of_lt_two_pow_of_le (w := 4) (by omega) (by decide)
  · exact testBit_of_lt_two_pow_of_le hw hout

/-- A shifted term has no common bit with one below its shift. -/
theorem shiftLeft_and_eq_zero {i z : Nat} (hz : z < 2 ^ i) (x : Nat) : x <<< i &&& z = 0 := by
  refine Nat.eq_of_testBit_eq fun k => ?_
  rw [Nat.testBit_and, Nat.zero_testBit]
  rcases lt_or_ge k i with hlow | hhigh
  · rw [testBit_shiftLeft_of_lt hlow, Bool.false_and]
  · rw [testBit_of_lt_two_pow_of_le hz hhigh, Bool.and_false]

section

variable {minute hour yday yoc : Nat} (h : FieldsFit minute hour yday yoc) (leap dstNext dstNow : Bool)

include h

theorem FieldsFit.bcd_minute_lt : paddedBcd minute < 2 ^ 8 := by
  have := paddedBcd_le_of_le_59 h.minute_le
  omega

theorem FieldsFit.bcd_hour_lt : paddedBcd hour < 2 ^ 7 := by
  have := paddedBcd_le_of_le_23 h.hour_le
  omega

theorem FieldsFit.bcd_yday_lt : paddedBcd yday < 2 ^ 12 := by
  have := paddedBcd_le_of_le_366 h.yday_le
  omega

theorem FieldsFit.bcd_yoc_lt : paddedBcd yoc < 2 ^ 9 := by
  have := paddedBcd_le_of_le_99 h.yoc_le
  omega

/-- R68's terms, from the highest place to the lowest: each lies above all that follow. -/
theorem FieldsFit.terms_disjoint :
    ([paddedBcd minute <<< 51, paddedBcd hour <<< 41, paddedBcd yday <<< 26, paddedBcd yoc <<< 6, leap.toNat <<< 4,
      dstNext.toNat <<< 2, dstNow.toNat <<< 1] : List Nat).Pairwise (fun a b => a &&& b = 0) := by
  have hhour := h.bcd_hour_lt
  have hyday := h.bcd_yday_lt
  have hyoc := h.bcd_yoc_lt
  have hleap := leap.toNat_lt
  have hnext := dstNext.toNat_lt
  have hnow := dstNow.toNat_lt
  simp only [List.pairwise_cons, List.mem_cons, List.not_mem_nil, or_false, List.Pairwise.nil, and_true]
  refine ⟨?_, ?_, ?_, ?_, ?_, ?_, ?_⟩ <;> intro z hz
  on_goal 7 => cases hz
  all_goals exact shiftLeft_and_eq_zero (by omega) _

/-- The one term that can set a bit of the frame, by the bit's place. -/
theorem FieldsFit.getLsbD_assembleFrame {k : Nat} (hk : k < 60) :
    (assembleFrame minute hour yday yoc leap dstNext dstNow).getLsbD k
      = if 51 ≤ k then (paddedBcd minute).testBit (k - 51)
        else if 41 ≤ k then (paddedBcd hour).testBit (k - 41)
        else if 26 ≤ k then (paddedBcd yday).testBit (k - 26)
        else if 6 ≤ k then (paddedBcd yoc).testBit (k - 6)
        else if k = 4 then leap else if k = 2 then dstNext else if k = 1 then dstNow else false := by
  have hhour := fun hle => testBit_of_lt_two_pow_of_le (k := k - 41) h.bcd_hour_lt hle
  have hyday := fun hle => testBit_of_lt_two_pow_of_le (k := k - 26) h.bcd_yday_lt hle
  have hyoc := fun hle => testBit_of_lt_two_pow_of_le (k := k - 6) h.bcd_yoc_lt hle
  have flag : ∀ (b : Bool) (i : Nat), 1 ≤ i → b.toNat.testBit i = false := fun b i hi =>
    testBit_of_lt_two_pow_of_le (w := 1) b.toNat_lt hi
  rw [assembleFrame_getLsbD _ _ _ _ _ _ _ hk]
  by_cases hlow : k < 6
  · interval_cases k <;> simp [-Nat.testBit_zero, Nat.testBit_bool_toNat]
  · rw [if_pos (show 6 ≤ k by omega)]
    split_ifs <;>
      simp (disch := omega) only [testBit_shiftLeft_of_lt, testBit_shiftLeft_of_le, hhour, hyday, hyoc, flag,
        Bool.or_false, Bool.false_or]

/-- R70: an offset that is not one of the 34 holds a 0. -/
theorem FieldsFit.offsetBit_eq_false {k : Nat} (hk : k < 60) (hfixed : k ∉ variableOffsets) :
    offsetBit (assembleFrame minute hour yday yoc leap dstNext dstNow) k = false := by
  simp only [variableOffsets, List.mem_cons, List.not_mem_nil, or_false, not_or] at hfixed
  rw [offsetBit, h.getLsbD_assembleFrame _ _ _ (by omega)]
  split_ifs
  · exact paddedBcd_testBit_eq_false h.bcd_minute_lt (by omega)
  · exact paddedBcd_testBit_eq_false h.bcd_hour_lt (by omega)
  · exact paddedBcd_testBit_eq_false h.bcd_yday_lt (by omega)
  · exact paddedBcd_testBit_eq_false h.bcd_yoc_lt (by omega)
  · omega
  · omega
  · omega
  · rfl

end

/-- Settles O19: the fields of every instant fit their places, which do not meet. -/
theorem assemblerTermsAreDisjoint : Obligations.AssemblerTermsAreDisjoint := fun _ t _ =>
  (fieldsFit t).terms_disjoint ..

/-! ## The bits that can be 1 (R70) -/

/-- The bits R70 fixes are those of no variable offset. -/
theorem not_mem_variableOffsets_of_mask :
    ∀ k < 60, alwaysZeroMask.getLsbD (59 - k) = true → k ∉ variableOffsets := by decide

/-- A frame without the fixed bits, said by its offsets. -/
theorem and_alwaysZeroMask_eq_zero {f : Frame} (h : ∀ k < 60, k ∉ variableOffsets → offsetBit f k = false) :
    f &&& alwaysZeroMask = 0 := by
  ext i hi
  simp only [← BitVec.getLsbD_eq_getElem, BitVec.getLsbD_and]
  have hplace : 59 - (59 - i) = i := by omega
  cases hmask : alwaysZeroMask.getLsbD i with
  | false => simp
  | true =>
    have hfixed := not_mem_variableOffsets_of_mask (59 - i) (by omega) (by rw [hplace, hmask])
    have hclear := h (59 - i) (by omega) hfixed
    rw [offsetBit, hplace] at hclear
    simp [hclear]

theorem minuteFrame_and_alwaysZeroMask (ts : TimeServices) (t : Int) : minuteFrame ts t &&& alwaysZeroMask = 0 :=
  and_alwaysZeroMask_eq_zero fun _ hk hfixed => (fieldsFit t).offsetBit_eq_false _ _ _ hk hfixed

/-- A host on UTC with daylight saving all year. -/
def alwaysDst : TimeServices where
  localMidnight y m d := daysFromCivil y m d * 86400
  localIsDst _ := true

/-- Instants whose frames under `alwaysDst` set every variable bit between them: 18:59 and 14:59 on day 188 of 1988,
23:27 on day 277 of 1977. -/
def witnessInstants : List Int := [584218740, 584204340, 244855620]

theorem variableOffsets_are_set :
    ∀ k ∈ variableOffsets, ∃ t ∈ witnessInstants,
      inDomain t = true ∧ offsetBit (minuteFrame alwaysDst t) k = true := by
  decide

/-- Settles O18: an offset that is not listed holds a 0 in every frame, and each listed one is set at one of
`witnessInstants`. -/
theorem frameBitsThatCanBeSet : Obligations.FrameBitsThatCanBeSet := by
  intro k hk
  constructor
  · rintro ⟨ts, t, -, hset⟩
    by_contra hfixed
    have hclear : offsetBit (minuteFrame ts t) k = false := (fieldsFit t).offsetBit_eq_false _ _ _ hk hfixed
    rw [hclear] at hset
    cases hset
  · intro hvar
    obtain ⟨t, -, hdom, hset⟩ := variableOffsets_are_set k hvar
    exact ⟨alwaysDst, t, hdom, hset⟩

/-! ## The receiver (R14) -/

/-- The weights of the lowest `b` bits of a digit worth `w`, whose last bit is at offset `k`. -/
def digitWeights (k w : Nat) : Nat → List (Nat × Nat)
  | 0 => []
  | b + 1 => (k - b, 2 ^ b * w) :: digitWeights k w b

theorem weightSum_append (f : Frame) (xs ys : List (Nat × Nat)) :
    weightSum f (xs ++ ys) = weightSum f xs + weightSum f ys := by
  induction xs with
  | nil => simp [weightSum]
  | cons x xs ih =>
    rw [List.cons_append, weightSum, weightSum, ih]
    omega

/-- Where the offsets hold the bits of d, their weights sum to its value. -/
theorem weightSum_digitWeights {f : Frame} {d k : Nat} (w : Nat) {b : Nat}
    (h : ∀ i < b, offsetBit f (k - i) = d.testBit i) : weightSum f (digitWeights k w b) = d % 2 ^ b * w := by
  induction b with
  | zero => simp [digitWeights, weightSum, Nat.mod_one]
  | succ b ih =>
    have hbit : d / 2 ^ b % 2 = (d.testBit b).toNat := (Nat.toNat_testBit d b).symm
    rw [digitWeights, weightSum, ih fun i hi => h i (by omega), h b (by omega), Nat.mod_pow_succ, hbit]
    cases d.testBit b
    · simp
    · simp
      ring

theorem minuteWeights_eq : minuteWeights = digitWeights 3 10 3 ++ digitWeights 8 1 4 := rfl
theorem hourWeights_eq : hourWeights = digitWeights 13 10 2 ++ digitWeights 18 1 4 := rfl
theorem ydayWeights_eq : ydayWeights = digitWeights 23 100 2 ++ (digitWeights 28 10 4 ++ digitWeights 33 1 4) := rfl
theorem yocWeights_eq : yocWeights = digitWeights 48 10 4 ++ digitWeights 53 1 4 := rfl

/-- The `width` offsets that end at `last` hold the padded BCD of n. -/
def HoldsBcd (f : Frame) (last width n : Nat) : Prop :=
  ∀ j < width, offsetBit f (last - j) = (paddedBcd n).testBit j

section

variable {f : Frame} {last width n : Nat} (h : HoldsBcd f last width n)

include h

theorem HoldsBcd.ones (hw : 4 ≤ width) : weightSum f (digitWeights last 1 4) = n % 10 := by
  rw [weightSum_digitWeights (d := n % 10) 1 fun i hi => ?_]
  · omega
  · rw [h i (by omega), paddedBcd_testBit, if_pos (by omega)]

theorem HoldsBcd.tens (b : Nat) (hb : b ≤ 4) (hw : 5 + b ≤ width) :
    weightSum f (digitWeights (last - 5) 10 b) = n / 10 % 10 % 2 ^ b * 10 := by
  refine weightSum_digitWeights 10 fun i hi => ?_
  rw [Nat.sub_sub, h (5 + i) (by omega), paddedBcd_testBit, if_neg (by omega), if_pos (by omega),
    Nat.add_sub_cancel_left]

theorem HoldsBcd.hundreds (b : Nat) (hw : 10 + b ≤ width) :
    weightSum f (digitWeights (last - 10) 100 b) = n / 100 % 10 % 2 ^ b * 100 := by
  refine weightSum_digitWeights 100 fun i hi => ?_
  rw [Nat.sub_sub, h (10 + i) (by omega), paddedBcd_testBit, if_neg (by omega), if_neg (by omega),
    Nat.add_sub_cancel_left]

end

section

variable {minute hour yday yoc : Nat} (h : FieldsFit minute hour yday yoc) (leap dstNext dstNow : Bool)

include h

theorem FieldsFit.holds_minute : HoldsBcd (assembleFrame minute hour yday yoc leap dstNext dstNow) 8 9 minute := by
  intro j hj
  rw [offsetBit, h.getLsbD_assembleFrame _ _ _ (by omega), if_pos (by omega)]
  congr 1
  omega

theorem FieldsFit.holds_hour : HoldsBcd (assembleFrame minute hour yday yoc leap dstNext dstNow) 18 10 hour := by
  intro j hj
  rw [offsetBit, h.getLsbD_assembleFrame _ _ _ (by omega), if_neg (by omega), if_pos (by omega)]
  congr 1
  omega

theorem FieldsFit.holds_yday : HoldsBcd (assembleFrame minute hour yday yoc leap dstNext dstNow) 33 15 yday := by
  intro j hj
  rw [offsetBit, h.getLsbD_assembleFrame _ _ _ (by omega), if_neg (by omega), if_neg (by omega), if_pos (by omega)]
  congr 1
  omega

theorem FieldsFit.holds_yoc : HoldsBcd (assembleFrame minute hour yday yoc leap dstNext dstNow) 53 20 yoc := by
  intro j hj
  rw [offsetBit, h.getLsbD_assembleFrame _ _ _ (by omega), if_neg (by omega), if_neg (by omega), if_neg (by omega),
    if_pos (by omega)]
  congr 1
  omega

theorem FieldsFit.weighed_minute :
    weightSum (assembleFrame minute hour yday yoc leap dstNext dstNow) minuteWeights = minute := by
  have held := h.holds_minute leap dstNext dstNow
  have hle := h.minute_le
  rw [minuteWeights_eq, weightSum_append, held.tens 3 (by decide) (by decide), held.ones (by decide)]
  omega

theorem FieldsFit.weighed_hour :
    weightSum (assembleFrame minute hour yday yoc leap dstNext dstNow) hourWeights = hour := by
  have held := h.holds_hour leap dstNext dstNow
  have hle := h.hour_le
  rw [hourWeights_eq, weightSum_append, held.tens 2 (by decide) (by decide), held.ones (by decide)]
  omega

theorem FieldsFit.weighed_yday :
    weightSum (assembleFrame minute hour yday yoc leap dstNext dstNow) ydayWeights = yday := by
  have held := h.holds_yday leap dstNext dstNow
  have hle := h.yday_le
  rw [ydayWeights_eq, weightSum_append, weightSum_append, held.hundreds 2 (by decide),
    held.tens 4 (by decide) (by decide), held.ones (by decide)]
  omega

theorem FieldsFit.weighed_yoc :
    weightSum (assembleFrame minute hour yday yoc leap dstNext dstNow) yocWeights = yoc := by
  have held := h.holds_yoc leap dstNext dstNow
  have hle := h.yoc_le
  rw [yocWeights_eq, weightSum_append, held.tens 4 (by decide) (by decide), held.ones (by decide)]
  omega

theorem FieldsFit.offsetBit_leap :
    offsetBit (assembleFrame minute hour yday yoc leap dstNext dstNow) 55 = leap := by
  rw [offsetBit, h.getLsbD_assembleFrame _ _ _ (by decide)]
  simp

end

/-- Settles O17: each field is the padded BCD of a number in R61's range, whose digits the weights give back. -/
theorem receiverReadsFieldsBack : Obligations.ReceiverReadsFieldsBack := by
  intro ts t _
  have fits := fieldsFit t
  have hyoc := (yearOfCentury_bounds (utcDate t).year).1
  obtain ⟨hyday, -⟩ := utcYday_spec t
  refine ⟨?_, ?_, ?_, ?_, fits.offsetBit_leap ..⟩ <;> unfold minuteFrame
  · rw [fits.weighed_minute, Int.toNat_of_nonneg (utcMinute_bounds t).1]
  · rw [fits.weighed_hour, Int.toNat_of_nonneg (utcHour_bounds t).1]
  · rw [fits.weighed_yday, Int.toNat_of_nonneg (by omega)]
  · rw [fits.weighed_yoc, Int.toNat_of_nonneg hyoc, yearOfCentury]

/-! ## What the frame depends on (R72) -/

/-- Every field of a frame is a function of the UTC minute. -/
theorem minuteFrame_congr (ts : TimeServices) {t t' : Int} (h : t / 60 = t' / 60) :
    minuteFrame ts t = minuteFrame ts t' := by
  have hday : dayNumber t = dayNumber t' := by rw [dayNumber_eq_of_minute, dayNumber_eq_of_minute, h]
  have hdate : utcDate t = utcDate t' := by rw [utcDate, utcDate, hday]
  have hyday : utcYday t = utcYday t' := by rw [utcYday, utcYday, hday, hdate]
  have hhour : utcHour t = utcHour t' := by rw [utcHour_eq_of_minute, utcHour_eq_of_minute, h]
  have hminute : utcMinute t = utcMinute t' := by rw [utcMinute_eq_of_minute, utcMinute_eq_of_minute, h]
  simp only [minuteFrame, dstNext, dstNow, localMidnightOf, hdate, hyday, hhour, hminute]

/-- The two time-service flags are the only inputs that differ, and each has its own bit. -/
theorem minuteFrame_getLsbD_of_ne_dst (ts ts' : TimeServices) (t : Int) {k : Nat} (h1 : k ≠ 1) (h2 : k ≠ 2) :
    (minuteFrame ts t).getLsbD k = (minuteFrame ts' t).getLsbD k := by
  rcases lt_or_ge k 60 with hk | hk
  · simp only [minuteFrame, (fieldsFit t).getLsbD_assembleFrame _ _ _ hk, h1, h2, if_false]
  · rw [BitVec.getLsbD_of_ge _ _ hk, BitVec.getLsbD_of_ge _ _ hk]

/-- Settles O14: the fields are functions of the minute, the flags have bits 1 and 2, and a frame written in the
domain is the minute's. -/
theorem frameDependsOnMinuteAndTimeServices : Obligations.FrameDependsOnMinuteAndTimeServices := by
  refine ⟨fun ts _ _ => minuteFrame_congr ts, fun ts ts' t _ => minuteFrame_getLsbD_of_ne_dst ts ts' t,
    fun ts t s s' hdom => ?_⟩
  rw [prepareMinute_of_inDomain hdom, prepareMinute_of_inDomain hdom, writeFrame_frame, writeFrame_frame]

/-- A UTC minute lies wholly inside the domain or wholly outside. -/
theorem inDomain_congr {t t' : Int} (h : t / 60 = t' / 60) (hdom : inDomain t = true) : inDomain t' = true := by
  rw [inDomain_iff] at hdom ⊢
  omega

theorem writeFrame_writeFrame (f g : Frame) (s : State) : writeFrame g (writeFrame f s) = writeFrame g s := rfl

/-- Settles O15: the second command is accepted too, and writes the same frame. -/
theorem prepareIsIdempotentWithinMinute : Obligations.PrepareIsIdempotentWithinMinute := by
  intro t t' s hnone hdom hminute
  have hnone' : (prepareMinute Config.timeServices t s).faultCode = .none := by
    rw [prepareMinute_of_inDomain hdom, writeFrame_faultCode, hnone]
  refine ⟨_, exec_prepare_of_none hnone t, ?_⟩
  rw [exec_prepare_of_none hnone', prepareMinute_of_inDomain hdom,
    prepareMinute_of_inDomain (inDomain_congr hminute hdom), writeFrame_writeFrame, minuteFrame_congr _ hminute]

end Sys2Proof.Machine
end

section
/-! The step and the registers (spec/10_state.md R15, R17, R18, R23; spec/60_exceptions.md R83 to R87): what each
event leaves unchanged, what a fault stops, and the invariant. -/

namespace Sys2Proof.Machine

/-! ## One step by its event (R27, R96, R97) -/

/-- Settles O5: the queue's head is taken off, and what it decodes to is run. -/
theorem stepRunsDecodedInstruction : Obligations.StepRunsDecodedInstruction := by
  intro s w rest i hpend hdec
  rw [step_of_command hpend, takeCommand, hdec]
  rfl

/-- Settles O6: the opcode leaves the decoder no command, and an accepted illegal word is a fault entry. -/
theorem stepOnIllegalWordRaisesIllegal : Obligations.StepOnIllegalWordRaisesIllegal := by
  intro s w rest hpend hnone hprep hget
  have hdec : decode w = .illegal (opcOf w) := by
    obtain ⟨hopc, -⟩ | ⟨hopc, -⟩ | ⟨-, -, hdec⟩ := decode_cases w
    · exact absurd hopc hprep
    · exact absurd hopc hget
    · exact hdec
  have hnone' : (withPending rest s).faultCode = .none := hnone
  rw [step_of_command hpend, takeCommand_of_none hnone', hdec]
  rfl

/-- Settles O7: there is nothing to take off the queue. -/
theorem stepWithNoEventIsIdle : Obligations.StepWithNoEventIsIdle := fun _ => step_of_nil

/-- Settles O9: `resetRegisters` writes registers alone. -/
theorem resetKeepsWhatCrossedThePorts : Obligations.ResetKeepsWhatCrossedThePorts := fun _ _ hpend =>
  ⟨_, step_of_reset hpend, rfl, rfl⟩

/-- Settles O10: idle and reset are next states, and so is a word offered, accepted or not. -/
theorem stepAlwaysAnswersNextState : Obligations.StepAlwaysAnswersNextState := by
  intro s
  cases hpend : s.pending with
  | nil => exact ⟨_, step_of_nil hpend⟩
  | cons e rest =>
    cases e with
    | reset => exact ⟨_, step_of_reset hpend⟩
    | command w =>
      rw [step_of_command hpend]
      by_cases hnone : (withPending rest s).faultCode = .none
      · exact ⟨_, takeCommand_of_none hnone w⟩
      · exact ⟨_, takeCommand_of_fault hnone w⟩

/-! ## What the two commands leave unchanged (R37) -/

theorem prepareMinute_pending (ts : TimeServices) (t : Int) (s : State) :
    (prepareMinute ts t s).pending = s.pending := by
  obtain ⟨-, heq⟩ | ⟨-, heq⟩ := prepareMinute_cases ts t s <;> rw [heq] <;> rfl

theorem prepareMinute_responses (ts : TimeServices) (t : Int) (s : State) :
    (prepareMinute ts t s).responses = s.responses := by
  obtain ⟨-, heq⟩ | ⟨-, heq⟩ := prepareMinute_cases ts t s <;> rw [heq] <;> rfl

theorem getModulation_frame (n : Nat) (s : State) : (getModulation n s).frame = s.frame := by
  obtain ⟨-, heq⟩ | ⟨-, f, -, heq⟩ | ⟨-, -, heq⟩ := getModulation_cases n s <;> rw [heq] <;> rfl

theorem getModulation_frameValid (n : Nat) (s : State) : (getModulation n s).frameValid = s.frameValid := by
  obtain ⟨-, heq⟩ | ⟨-, f, -, heq⟩ | ⟨-, -, heq⟩ := getModulation_cases n s <;> rw [heq] <;> rfl

theorem getModulation_pending (n : Nat) (s : State) : (getModulation n s).pending = s.pending := by
  obtain ⟨-, heq⟩ | ⟨-, f, -, heq⟩ | ⟨-, -, heq⟩ := getModulation_cases n s <;> rw [heq] <;> rfl

/-- Settles O13: an unaccepted command changes nothing; an accepted one writes the frame or the fault record. -/
theorem prepareChangesFrameOrFaultRecordOnly : Obligations.PrepareChangesFrameOrFaultRecordOnly := by
  intro t s u h
  by_cases hnone : s.faultCode = .none
  · rw [exec_prepare_of_none hnone] at h
    cases h
    refine ⟨prepareMinute_pending .., prepareMinute_responses .., ?_⟩
    obtain ⟨-, heq⟩ | ⟨-, heq⟩ := prepareMinute_cases Config.timeServices t s <;> rw [heq]
    · exact .inl ⟨rfl, rfl⟩
    · exact .inr ⟨rfl, rfl⟩
  · rw [exec_of_fault hnone] at h
    cases h
    exact ⟨rfl, rfl, .inl ⟨rfl, rfl⟩⟩

/-- Settles O31: an unaccepted command changes nothing; an accepted one answers or records its fault. -/
theorem getmodWritesNoRegister : Obligations.GetmodWritesNoRegister := by
  intro n s u h
  by_cases hnone : s.faultCode = .none
  · rw [exec_getmod_of_none hnone] at h
    cases h
    refine ⟨getModulation_frame .., getModulation_frameValid .., getModulation_pending .., ?_⟩
    obtain ⟨-, heq⟩ | ⟨-, f, -, heq⟩ | ⟨-, -, heq⟩ := getModulation_cases n s <;> rw [heq]
    · exact ⟨fun _ => ⟨rfl, rfl⟩, fun hfault => absurd hnone hfault⟩
    · exact ⟨fun _ => ⟨rfl, rfl⟩, fun hfault => absurd hnone hfault⟩
    · exact ⟨fun hno => (nomatch hno), fun _ => rfl⟩
  · rw [exec_of_fault hnone] at h
    cases h
    exact ⟨rfl, rfl, rfl, fun _ => ⟨rfl, rfl⟩, fun _ => rfl⟩

/-! ## Faults (R84, R85, R87) -/

/-- Settles O44: the precondition of acceptance fails, for a word as for a command. -/
theorem haltedBlockAcceptsNoWord : Obligations.HaltedBlockAcceptsNoWord := by
  refine ⟨fun s w rest hfault hpend => ?_, fun s i hfault => exec_of_fault hfault i⟩
  rw [step_of_command hpend, takeCommand_of_fault (s := withPending rest s) hfault]
  rfl

/-- Settles O43: a command that records a fault is one fault entry with its own word. -/
theorem faultEntryIsPrecise : Obligations.FaultEntryIsPrecise := by
  intro s u w rest hnone hpend hstep hfault
  have hnone' : (withPending rest s).faultCode = .none := hnone
  rw [step_of_command hpend, takeCommand_of_none hnone'] at hstep
  cases hstep
  obtain ⟨-, hdec⟩ | ⟨-, hdec⟩ | ⟨-, -, hdec⟩ := decode_cases w <;> simp only [hdec] at hfault ⊢
  · obtain ⟨-, heq⟩ | ⟨-, heq⟩ := prepareMinute_cases Config.timeServices (operandOf w).toInt (withPending rest s)
    · exact absurd (by rw [heq, writeFrame_faultCode, hnone']) hfault
    · rw [heq, encode_of_decode hdec]
      rfl
  · obtain ⟨-, heq⟩ | ⟨-, f, -, heq⟩ | ⟨-, -, heq⟩ := getModulation_cases (operandOf w).toNat (withPending rest s)
    · exact absurd (by rw [heq, respond_faultCode, hnone']) hfault
    · exact absurd (by rw [heq, respond_faultCode, hnone']) hfault
    · rw [heq, encode_of_decode hdec]
      rfl
  · rfl

/-- Settles O45: with a fault recorded a step is idle, a reset, or a word left unaccepted. -/
theorem faultRecordStaysUntilReset : Obligations.FaultRecordStaysUntilReset := by
  intro s u hstep hfault
  obtain ⟨-, rfl⟩ | ⟨rest, hpend, -⟩ | ⟨w, rest, -, ⟨-, rfl⟩ | ⟨hnone, -⟩⟩ := step_cases hstep
  · exact .inl ⟨rfl, rfl, rfl, rfl, rfl⟩
  · exact .inr ⟨rest, hpend⟩
  · exact .inl ⟨rfl, rfl, rfl, rfl, rfl⟩
  · exact absurd hnone hfault

/-! ## Who writes the frame registers (R15, R17) -/

/-- A decoded PREPARE_MINUTE is a word of opcode 0x01 whose operand is its instant. -/
theorem fields_of_decode_prepare {w : CmdWord} {t : Int} (h : decode w = .instr (.prepare t)) :
    opcOf w = opcPrepare ∧ (operandOf w).toInt = t := by
  obtain ⟨hopc, hdec⟩ | ⟨-, hdec⟩ | ⟨-, -, hdec⟩ := decode_cases w <;> rw [hdec] at h <;> cases h
  exact ⟨hopc, rfl⟩

/-- A decoded GET_MODULATION is a word of opcode 0x02 whose operand is its second. -/
theorem fields_of_decode_getmod {w : CmdWord} {n : Nat} (h : decode w = .instr (.getmod n)) :
    opcOf w = opcGetmod ∧ (operandOf w).toNat = n := by
  obtain ⟨-, hdec⟩ | ⟨hopc, hdec⟩ | ⟨-, -, hdec⟩ := decode_cases w <;> rw [hdec] at h <;> cases h
  exact ⟨hopc, rfl⟩

/-- A step leaves the frame registers as they were, discards them at a reset, or writes the frame of the instant
that an accepted word of opcode 0x01 carries. -/
theorem step_frame_cases {s u : State} (h : step s = .next u) :
    (u.frame = s.frame ∧ u.frameValid = s.frameValid)
    ∨ (∃ rest, s.pending = .reset :: rest)
    ∨ ∃ w rest, s.pending = .command w :: rest ∧ s.faultCode = .none ∧ opcOf w = opcPrepare
        ∧ inDomain (operandOf w).toInt = true
        ∧ u.frame = some (minuteFrame Config.timeServices (operandOf w).toInt) ∧ u.frameValid = true := by
  obtain ⟨-, rfl⟩ | ⟨rest, hpend, -⟩ | ⟨w, rest, hpend, ⟨-, rfl⟩ |
    ⟨hnone, ⟨t, hdec, rfl⟩ | ⟨n, -, rfl⟩ | ⟨opc, -, rfl⟩⟩⟩ := step_cases h
  · exact .inl ⟨rfl, rfl⟩
  · exact .inr (.inl ⟨rest, hpend⟩)
  · exact .inl ⟨rfl, rfl⟩
  · obtain ⟨hopc, rfl⟩ := fields_of_decode_prepare hdec
    obtain ⟨hdom, heq⟩ | ⟨-, heq⟩ :=
      prepareMinute_cases Config.timeServices (operandOf w).toInt (withPending rest s) <;> rw [heq]
    · exact .inr (.inr ⟨w, rest, hpend, hnone, hopc, hdom, rfl, rfl⟩)
    · exact .inl ⟨rfl, rfl⟩
  · exact .inl ⟨getModulation_frame .., getModulation_frameValid ..⟩
  · exact .inl ⟨rfl, rfl⟩

/-- Settles O46: of the ways a step treats the frame registers, two change `FRAME`. -/
theorem onlyPrepareOrResetChangesFrame : Obligations.OnlyPrepareOrResetChangesFrame := by
  intro s u hstep hchange
  obtain ⟨hframe, -⟩ | hreset | ⟨w, rest, hpend, hnone, hopc, hdom, hframe, -⟩ := step_frame_cases hstep
  · exact absurd hframe hchange
  · exact .inl hreset
  · exact .inr ⟨w, rest, hpend, hnone, hopc, hdom, hframe⟩

/-- Settles O47: of the ways a step treats the frame registers, only a reset clears `FRAME_VALID`, and only a
prepare sets it, together with `FRAME`. -/
theorem frameValidSetByPrepareClearedByReset : Obligations.FrameValidSetByPrepareClearedByReset := by
  refine ⟨rfl, fun t s hnone hdom => ?_, fun s u hstep hset hclear => ?_, fun s u hstep hclear hset => ?_⟩
  · refine ⟨_, exec_prepare_of_none hnone t, ?_⟩
    rw [prepareMinute_of_inDomain hdom]
    exact ⟨rfl, rfl⟩
  · obtain ⟨-, hvalid⟩ | hreset | ⟨w, rest, -, -, -, -, -, hvalid⟩ := step_frame_cases hstep
    · rw [hvalid, hset] at hclear
      cases hclear
    · exact hreset
    · rw [hvalid] at hclear
      cases hclear
  · obtain ⟨-, hvalid⟩ | ⟨rest, hpend⟩ | ⟨w, rest, hpend, -, hopc, -, hframe, -⟩ := step_frame_cases hstep
    · rw [hvalid, hclear] at hset
      cases hset
    · rw [step_of_reset hpend] at hstep
      cases hstep
      cases hset
    · exact ⟨w, rest, hpend, hopc, by rw [hframe, Option.isSome_some]⟩

/-! ## STATUS (R23) -/

/-- Settles O48: the two components are injective codes of the two registers. -/
theorem statusShowsTheStatusRegisters : Obligations.StatusShowsTheStatusRegisters := by
  intro s
  unfold State.status State.validBit
  cases s.frameValid <;> cases s.faultCode <;> decide

/-! ## The invariant (R17, R19, R49, R70, R81, R83) -/

/-- Settles O49: no frame, no fault, no answer. -/
theorem resetMeetsInvariant : Obligations.ResetMeetsInvariant where
  valid_iff := by simp
  fixed_zero := by simp
  fault_ok := trivial
  responses_ok := by simp

theorem State.Inv.withPending {s : State} (h : s.Inv) (evs : List HostEvent) : (withPending evs s).Inv :=
  ⟨h.valid_iff, h.fixed_zero, h.fault_ok, h.responses_ok⟩

/-- A reset gives up the frame and the fault record and keeps the answers. -/
theorem State.Inv.resetRegisters {s : State} (h : s.Inv) : (resetRegisters s).Inv :=
  ⟨resetMeetsInvariant.valid_iff, resetMeetsInvariant.fixed_zero, resetMeetsInvariant.fault_ok, h.responses_ok⟩

theorem State.Inv.raiseFault {s : State} (h : s.Inv) {c : FaultCode} {w : CmdWord}
    (hrecord : faultRecordOk c (some w) s.frameValid) : (raiseFault c w s).Inv :=
  ⟨h.valid_iff, h.fixed_zero, hrecord, h.responses_ok⟩

theorem State.Inv.respond {s : State} (h : s.Inv) {w : CmdWord} {r : RspWord} (hr : responseOk ⟨w, r⟩) :
    (respond w r s).Inv where
  valid_iff := h.valid_iff
  fixed_zero := h.fixed_zero
  fault_ok := h.fault_ok
  responses_ok x hx := by
    rw [respond_responses, List.mem_append, List.mem_singleton] at hx
    obtain hold | rfl := hx
    · exact h.responses_ok x hold
    · exact hr

/-- A recorded `F_UNPREPARED` would not bear a frame, so it matters that a frame is written with no fault. -/
theorem State.Inv.writeFrame {s : State} (h : s.Inv) (hnone : s.faultCode = .none) {f : Frame}
    (hf : f &&& alwaysZeroMask = 0) : (writeFrame f s).Inv where
  valid_iff := by simp
  fixed_zero g hg := by
    cases hg
    exact hf
  fault_ok := by
    have hrecord := h.fault_ok
    rw [hnone] at hrecord
    rw [writeFrame_faultCode, writeFrame_faultCmd, writeFrame_frameValid, hnone]
    cases hcmd : s.faultCmd with
    | none => trivial
    | some w => rw [hcmd] at hrecord; exact hrecord
  responses_ok := h.responses_ok

/-- R49: the word of a data bit is one of the two data words. -/
theorem symbolWord_bitSymbol (b : Bool) : symbolWord (bitSymbol b) = if b then 0x003E90000 else 0x001910000 := by
  cases b <;> decide

theorem prepareMinute_inv {s : State} (h : s.Inv) (hnone : s.faultCode = .none) {w : CmdWord} {t : Int}
    (hdec : decode w = .instr (.prepare t)) (ts : TimeServices) : (prepareMinute ts t s).Inv := by
  obtain ⟨-, heq⟩ | ⟨hdom, heq⟩ := prepareMinute_cases ts t s <;> rw [heq]
  · exact h.writeFrame hnone (minuteFrame_and_alwaysZeroMask ts t)
  · obtain ⟨hopc, rfl⟩ := fields_of_decode_prepare hdec
    rw [encode_of_decode hdec]
    exact h.raiseFault ⟨hopc, hdom⟩

theorem getModulation_inv {s : State} (h : s.Inv) {w : CmdWord} {n : Nat} (hdec : decode w = .instr (.getmod n)) :
    (getModulation n s).Inv := by
  obtain ⟨hopc, rfl⟩ := fields_of_decode_getmod hdec
  obtain ⟨hclass, heq⟩ | ⟨hclass, f, -, heq⟩ | ⟨hclass, hread, heq⟩ := getModulation_cases (operandOf w).toNat s <;>
    rw [heq, encode_of_decode hdec]
  · refine h.respond ⟨hopc, ?_⟩
    simp only [hclass, symbolWord_marker]
  · refine h.respond ⟨hopc, ?_⟩
    simp only [hclass, symbolWord_bitSymbol]
    cases sliceBit f (operandOf w).toNat <;> simp
  · exact h.raiseFault ⟨hopc, hclass, h.readFrame_eq_none_iff.1 hread⟩

/-- Settles O50: every effect a step can have keeps the invariant. -/
theorem stepKeepsInvariant : Obligations.StepKeepsInvariant := by
  intro s u hinv hstep
  obtain ⟨-, rfl⟩ | ⟨rest, -, rfl⟩ | ⟨w, rest, -, ⟨-, rfl⟩ |
    ⟨hnone, ⟨t, hdec, rfl⟩ | ⟨n, hdec, rfl⟩ | ⟨opc, hdec, rfl⟩⟩⟩ := step_cases hstep
  · exact hinv
  · exact (hinv.withPending rest).resetRegisters
  · exact hinv.withPending rest
  · exact prepareMinute_inv (hinv.withPending rest) hnone hdec _
  · exact getModulation_inv (hinv.withPending rest) hdec
  · refine (hinv.withPending rest).raiseFault ?_
    obtain ⟨-, hdec'⟩ | ⟨-, hdec'⟩ | ⟨hprep, hget, -⟩ := decode_cases w
    · rw [hdec'] at hdec
      cases hdec
    · rw [hdec'] at hdec
      cases hdec
    · exact ⟨hprep, hget⟩

end Sys2Proof.Machine
end

section
/-! GET_MODULATION (spec/42_second_modulator.md R73 to R81), the response word (spec/30_encoding.md R46 to R49), and
runs of host events (spec/70_reset_and_hazards.md R94, R101, R106). -/

namespace Sys2Proof.Machine

/-! ## The answer to a read of a prepared frame (R73, R79) -/

/-- A marker second is answered whatever the frame registers hold. -/
theorem exec_getmod_of_marker {n : Nat} {s : State} (hnone : s.faultCode = .none) (hclass : classify n = .marker)
    (f : Frame) : exec (.getmod n) s = .next (respond (encode (.getmod n)) (symbolWord (secondSymbol f n)) s) := by
  rw [exec_getmod_of_none hnone, getModulation_of_marker hclass, secondSymbol_of_marker f hclass]

/-- Every second of a prepared frame is answered, and the answer is all that changes. -/
theorem exec_getmod_of_prepared {n : Nat} {f : Frame} {s : State} (hnone : s.faultCode = .none)
    (hvalid : s.frameValid = true) (hframe : s.frame = some f) :
    exec (.getmod n) s = .next (respond (encode (.getmod n)) (symbolWord (secondSymbol f n)) s) := by
  cases hclass : classify n with
  | marker => exact exec_getmod_of_marker hnone hclass f
  | data =>
    rw [exec_getmod_of_none hnone, secondSymbol_of_data f hclass]
    simp only [getModulation, hclass, readFrame_of_valid hvalid hframe, sliceBit]

theorem secondWord_of_marker (f : Frame) {n : Nat} (h : classify n = .marker) :
    symbolWord (secondSymbol f n) = 0x006410000 := by
  rw [secondSymbol_of_marker f h, symbolWord_marker]

theorem secondWord_of_data (f : Frame) {n : Nat} (h : classify n = .data) :
    symbolWord (secondSymbol f n) = if f.getLsbD (59 - n) then 0x003E90000 else 0x001910000 := by
  rw [secondSymbol_of_data f h, symbolWord_bitSymbol]

/-- Settles O28: the marker needs no frame. -/
theorem getmodAnswersMarker : Obligations.GetmodAnswersMarker := by
  intro n s hnone hmarker
  have hclass := classify_marker_of hmarker
  rw [exec_getmod_of_marker hnone hclass 0, secondWord_of_marker 0 hclass]
  rfl

/-- Settles O29: the frame held is the one answered from. -/
theorem getmodAnswersDataBit : Obligations.GetmodAnswersDataBit := by
  intro n f s hnone hvalid hframe hlow hhigh hnine
  rw [exec_getmod_of_prepared hnone hvalid hframe, secondWord_of_data f (classify_data_of hlow hhigh hnine)]
  rfl

/-- Settles O39: the three response words differ. -/
theorem markerOnlyAtMarkerSeconds : Obligations.MarkerOnlyAtMarkerSeconds := by
  intro n f s hnone hvalid hframe
  refine ⟨_, _, exec_getmod_of_prepared hnone hvalid hframe, respond_responses .., rfl, ?_⟩
  rw [← classify_eq_marker_iff]
  cases hclass : classify n with
  | marker =>
    rw [secondWord_of_marker f hclass]
    simp
  | data =>
    rw [secondWord_of_data f hclass]
    cases f.getLsbD (59 - n) <;> simp

/-- Settles O40: each read finds the same frame, and only the record of answers grows. -/
theorem readsCommute : Obligations.ReadsCommute := by
  intro a b f s hnone hvalid hframe
  exact ⟨_, _, _, _, responseTo f a, responseTo f b,
    exec_getmod_of_prepared hnone hvalid hframe, exec_getmod_of_prepared hnone hvalid hframe,
    exec_getmod_of_prepared hnone hvalid hframe, exec_getmod_of_prepared hnone hvalid hframe,
    by simp [respond, responseTo], by simp [respond, responseTo]⟩

/-- Settles O41: the state the prepare leaves is a prepared one with the minute's frame. -/
theorem readSeesThePreparedFrame : Obligations.ReadSeesThePreparedFrame := by
  intro t n s hnone hdom
  have hprep := exec_prepare_of_none hnone t
  rw [prepareMinute_of_inDomain hdom] at hprep
  exact ⟨_, _, hprep, exec_getmod_of_prepared hnone (writeFrame_frameValid ..) (writeFrame_frame ..), rfl⟩

/-! ## What sixty answers tell (R80) -/

/-- The offsets of the markers are fixed bits. -/
theorem alwaysZeroMask_of_marker :
    ∀ n < 60, classify n = .marker → alwaysZeroMask.getLsbD (59 - n) = true := by decide

/-- A bit under the mask is 0. -/
theorem getLsbD_of_and_alwaysZeroMask {f : Frame} (h : f &&& alwaysZeroMask = 0) {k : Nat}
    (hk : alwaysZeroMask.getLsbD k = true) : f.getLsbD k = false := by
  have hand := congrArg (fun g : Frame => g.getLsbD k) h
  simpa [hk] using hand

/-- Settles O38: at a data second the two words differ with the bit, and the bits at marker seconds are fixed. -/
theorem minuteOfAnswersDeterminesFrame : Obligations.MinuteOfAnswersDeterminesFrame := by
  intro f g hf hg hanswers
  refine BitVec.eq_of_getLsbD_eq fun i hi => ?_
  have hplace : 59 - (59 - i) = i := by omega
  have hword := hanswers (59 - i) (by omega)
  cases hclass : classify (59 - i) with
  | marker =>
    have hmask := alwaysZeroMask_of_marker _ (by omega) hclass
    rw [hplace] at hmask
    rw [getLsbD_of_and_alwaysZeroMask hf hmask, getLsbD_of_and_alwaysZeroMask hg hmask]
  | data =>
    rw [responseTo, responseTo, secondWord_of_data f hclass, secondWord_of_data g hclass, hplace] at hword
    revert hword
    cases f.getLsbD i <;> cases g.getLsbD i <;> simp

/-! ## The response word (R46 to R49) and its meaning in time (R77) -/

theorem level_ofBit_bit (l : Level) : Level.ofBit l.bit = l := by cases l <;> rfl

theorem level_bit_ofBit (b : BitVec 1) : (Level.ofBit b).bit = b := by
  revert b
  decide

/-- A field that fits the response word at its place is not cut. -/
theorem toNat_setWidth_shiftLeft {w k : Nat} (x : BitVec w) (h : w + k ≤ 34) :
    (x.setWidth 34 <<< k).toNat = x.toNat <<< k := by
  have hx : x.toNat < 2 ^ 34 := lt_of_lt_of_le x.isLt (Nat.pow_le_pow_right (by decide) (by omega))
  have hfit : x.toNat <<< k < 2 ^ 34 := by
    rw [Nat.shiftLeft_eq]
    calc x.toNat * 2 ^ k
      _ < 2 ^ w * 2 ^ k := Nat.mul_lt_mul_of_pos_right x.isLt (Nat.two_pow_pos k)
      _ = 2 ^ (w + k) := (Nat.pow_add 2 w k).symm
      _ ≤ 2 ^ 34 := Nat.pow_le_pow_right (by decide) h
  rw [BitVec.toNat_shiftLeft, BitVec.toNat_setWidth, Nat.mod_eq_of_lt hx, Nat.mod_eq_of_lt hfit]

/-- The four fields do not overlap, so joining them is adding them. -/
theorem encodeResponse_toNat (m : SecondModulation) :
    (encodeResponse m).toNat
      = m.seg0.level.bit.toNat * 2 ^ 33 + m.seg0.duration.toNat * 2 ^ 17 + m.seg1.level.bit.toNat * 2 ^ 16
        + m.seg1.duration.toNat := by
  have hlevel := m.seg1.level.bit.isLt
  have hdur0 := m.seg0.duration.isLt
  have hdur1 := m.seg1.duration.isLt
  have hlast : (m.seg1.duration.setWidth 34).toNat = m.seg1.duration.toNat := by
    rw [BitVec.toNat_setWidth]
    omega
  simp only [encodeResponse, BitVec.toNat_or]
  rw [toNat_setWidth_shiftLeft _ (by decide), toNat_setWidth_shiftLeft _ (by decide),
    toNat_setWidth_shiftLeft _ (by decide), hlast, Nat.or_assoc, Nat.or_assoc,
    ← Nat.shiftLeft_add_eq_or_of_lt (b := m.seg1.duration.toNat) (by omega),
    ← Nat.shiftLeft_add_eq_or_of_lt (b := _ + _) (by omega),
    ← Nat.shiftLeft_add_eq_or_of_lt (b := _ + _) (by omega)]
  simp only [Nat.shiftLeft_eq]
  omega

/-- A field of a word is the quotient and remainder at its place. -/
theorem extractLsb'_toNat_eq_div (w : RspWord) (i k : Nat) :
    (w.extractLsb' i k).toNat = w.toNat / 2 ^ i % 2 ^ k := by
  rw [BitVec.extractLsb'_toNat, Nat.shiftRight_eq_div_pow]

theorem decodeResponse_encodeResponse (m : SecondModulation) : decodeResponse (encodeResponse m) = m := by
  have hlevel0 := m.seg0.level.bit.isLt
  have hlevel1 := m.seg1.level.bit.isLt
  have hdur0 := m.seg0.duration.isLt
  have hdur1 := m.seg1.duration.isLt
  have field : ∀ {i k : Nat} {x : BitVec k}, (encodeResponse m).toNat / 2 ^ i % 2 ^ k = x.toNat →
      (encodeResponse m).extractLsb' i k = x := fun h =>
    BitVec.eq_of_toNat_eq ((extractLsb'_toNat_eq_div ..).trans h)
  rw [encodeResponse_toNat] at field
  rw [decodeResponse, field (x := m.seg0.level.bit) (by omega), field (x := m.seg0.duration) (by omega),
    field (x := m.seg1.level.bit) (by omega), field (x := m.seg1.duration) (by omega), level_ofBit_bit,
    level_ofBit_bit]

theorem encodeResponse_decodeResponse (w : RspWord) : encodeResponse (decodeResponse w) = w := by
  have hw := w.isLt
  refine BitVec.eq_of_toNat_eq ?_
  rw [encodeResponse_toNat]
  simp only [decodeResponse, level_bit_ofBit, extractLsb'_toNat_eq_div]
  omega

/-- Settles O35: the fields are the quotients and remainders of the word at their places. -/
theorem responseWordHoldsSchedule : Obligations.ResponseWordHoldsSchedule :=
  ⟨decodeResponse_encodeResponse, encodeResponse_decodeResponse, encodeResponse_toNat⟩

/-- Settles O36: the three schedules are packed. -/
theorem threeResponseWords : Obligations.ThreeResponseWords :=
  ⟨symbolWord_marker, symbolWord_bitSymbol true, symbolWord_bitSymbol false⟩

theorem length_filter_range_lt {k n : Nat} (h : k ≤ n) :
    ((List.range n).filter (fun i => decide (i < k))).length = k := by
  obtain ⟨d, rfl⟩ := Nat.exists_eq_add_of_le h
  have below : (List.range k).filter (fun i => decide (i < k)) = List.range k := by
    rw [List.filter_eq_self]
    simp
  have above : ((List.range d).map (k + ·)).filter (fun i => decide (i < k)) = [] := by
    rw [List.filter_eq_nil_iff]
    simp
  rw [List.range_add, List.filter_append, below, above, List.append_nil, List.length_range]

theorem amplitudeSchedule_levelAt (y : Symbol) (τ : Nat) :
    (amplitudeSchedule y).levelAt τ = if τ < (lowTime y).toNat then .low else .high := rfl

/-- Settles O37: the final segment is HIGH, so the LOW milliseconds are those before the first segment's end. -/
theorem scheduleCoversTheSecond : Obligations.ScheduleCoversTheSecond := by
  intro y
  have hlow : ∀ τ, (amplitudeSchedule y).levelAt τ = .low ↔ τ < (lowTime y).toNat := by
    intro τ
    rw [amplitudeSchedule_levelAt]
    split <;> simp [*]
  have hle : (lowTime y).toNat ≤ 1000 := by cases y <;> decide
  refine ⟨hlow, ?_⟩
  have hfilter : (fun τ => (amplitudeSchedule y).levelAt τ == .low) = fun τ => decide (τ < (lowTime y).toNat) := by
    funext τ
    rw [Bool.eq_iff_iff, beq_iff_eq, hlow, decide_eq_true_eq]
  rw [hfilter, length_filter_range_lt hle]
  cases y <;> rfl

/-! ## Runs (R94, R101, R106) -/

theorem step_of_encoded {s : State} {i : Instr} {rest : List HostEvent} (hwf : i.wellFormed = true)
    (hpend : s.pending = .command (encode i) :: rest) : step s = exec i (withPending rest s) :=
  stepRunsDecodedInstruction s _ rest i hpend (decode_encode hwf)

/-- Settles O51: by induction on the words, each left unaccepted. -/
theorem haltedRunAcceptsNothing : Obligations.HaltedRunAcceptsNothing := by
  intro ws rest
  induction ws with
  | nil =>
    intro s _ hpend
    rw [List.length_nil, run_zero, ← show s.pending = rest from hpend]
  | cons w ws ih =>
    intro s hfault hpend
    rw [List.length_cons, run_succ (haltedBlockAcceptsNoWord.1 s w _ hfault hpend)]
    exact ih _ hfault rfl

/-- Settles O52: by induction on the reads, each of which leaves a prepared state with the same frame. -/
theorem readsAreAnsweredInAcceptanceOrder : Obligations.ReadsAreAnsweredInAcceptanceOrder := by
  intro ns f rest
  induction ns with
  | nil =>
    intro s _ _ _ _ hpend
    rw [List.length_nil, run_zero, List.map_nil, List.append_nil, ← show s.pending = rest from hpend]
  | cons n ns ih =>
    intro s hwf hnone hvalid hframe hpend
    obtain ⟨hn, hns⟩ := List.forall_mem_cons.1 hwf
    have hstep := (step_of_encoded hn hpend).trans (exec_getmod_of_prepared hnone hvalid hframe)
    rw [List.length_cons, run_succ hstep]
    refine Eq.trans (ih _ hns ?_ ?_ ?_ rfl) ?_
    · exact hnone
    · exact hvalid
    · exact hframe
    simp [respond, responseTo, withPending]

theorem wellFormed_prepare_of_inDomain {t : Int} (h : inDomain t = true) : (Instr.prepare t).wellFormed = true := by
  rw [inDomain_iff] at h
  simp only [Instr.wellFormed, Bool.and_eq_true, decide_eq_true_eq]
  omega

theorem holdsMinute_of_prepare {t : Int} (h : inDomain t = true) (ts : TimeServices) (s : State) :
    holdsMinute ts (some (t / 60)) (prepareMinute ts t s) := by
  rw [prepareMinute_of_inDomain h]
  exact ⟨rfl, congrArg some (minuteFrame_congr ts (Int.mul_ediv_cancel_left (t / 60) (by decide)).symm)⟩

/-- A read that keeps the schedule is answered from the frame of its minute: a marker from any, a data second
from the frame held. -/
theorem exec_getmod_of_scheduled {M : Int} {n : Nat} {cur : Option Int} {s : State} (hnone : s.faultCode = .none)
    (hheld : holdsMinute Config.timeServices cur s) (hmin : classify n = .marker ∨ cur = some M) :
    exec (.getmod n) s = .next (respond (encode (.getmod n))
      (symbolWord (secondSymbol (minuteFrame Config.timeServices (60 * M)) n)) s) := by
  obtain hclass | rfl := hmin
  · exact exec_getmod_of_marker hnone hclass _
  · exact exec_getmod_of_prepared hnone hheld.1 hheld.2

/-- One act of a host that keeps the schedule: the step meets no fault, gives what is owed for the act, and leaves
a state from which the rest of the acts keeps the schedule. -/
theorem step_of_scheduled {act : HostAct} {acts : List HostAct} {cur : Option Int} {evs : List HostEvent} {s : State}
    (hsched : followsSchedule cur (act :: acts) = true) (hnone : s.faultCode = .none)
    (hheld : holdsMinute Config.timeServices cur s) (hpend : s.pending = act.event :: evs) :
    ∃ u cur', step s = .next u ∧ followsSchedule cur' acts = true ∧ u.faultCode = .none
      ∧ holdsMinute Config.timeServices cur' u ∧ u.pending = evs
      ∧ u.responses ++ owedResponses Config.timeServices acts
          = s.responses ++ owedResponses Config.timeServices (act :: acts) := by
  have hnone' : (withPending evs s).faultCode = .none := hnone
  cases act with
  | prepare t =>
    simp only [followsSchedule, Bool.and_eq_true] at hsched
    obtain ⟨hdom, hsched⟩ := hsched
    refine ⟨_, some (t / 60), (step_of_encoded (wellFormed_prepare_of_inDomain hdom) hpend).trans
      (exec_prepare_of_none hnone' t), hsched, ?_, holdsMinute_of_prepare hdom .., prepareMinute_pending .., ?_⟩
    · rw [prepareMinute_of_inDomain hdom, writeFrame_faultCode, hnone']
    · rw [prepareMinute_responses]
      rfl
  | read M n =>
    simp only [followsSchedule, Bool.and_eq_true, Bool.or_eq_true, beq_iff_eq] at hsched
    obtain ⟨⟨hwf, hread⟩, hsched⟩ := hsched
    refine ⟨_, cur, (step_of_encoded hwf hpend).trans (exec_getmod_of_scheduled hnone' hheld hread), hsched, hnone,
      hheld, rfl, ?_⟩
    simp [owedResponses, responseTo]
  | reset =>
    exact ⟨_, none, step_of_reset hpend, hsched, rfl, trivial, rfl, rfl⟩

/-- Settles O53: by induction on the acts, each of which keeps the schedule's premises. -/
theorem scheduledHostIsAnsweredFromItsMinutes : Obligations.ScheduledHostIsAnsweredFromItsMinutes := by
  intro acts
  induction acts with
  | nil =>
    intro cur rest s _ hnone _ hpend
    exact ⟨s, rfl, hpend, hnone, (List.append_nil _).symm⟩
  | cons act acts ih =>
    intro cur rest s hsched hnone hheld hpend
    obtain ⟨u, cur', hstep, hsched', hnone', hheld', hpend', howed⟩ := step_of_scheduled hsched hnone hheld hpend
    obtain ⟨v, hrun, hrest, hok, hresp⟩ := ih cur' rest u hsched' hnone' hheld' hpend'
    exact ⟨v, (run_succ hstep _).trans hrun, hrest, hok, hresp.trans howed⟩

end Sys2Proof.Machine
end

section
/-! Assembler text (spec/30_encoding.md R52, R53, R55): numbers that are printed are read back, a line of two tokens
is its command, and ISO literals. -/

namespace Sys2Proof.Machine

/-! ## Runs of digits -/

theorem readDigits_concat (base : Nat) (digit : Char → Option Nat) (acc : Nat) (cs : List Char) (c : Char) :
    readDigits base digit acc (cs ++ [c])
      = (readDigits base digit acc cs).bind fun v => (digit c).map fun d => v * base + d := by
  induction cs generalizing acc with
  | nil => cases hd : digit c <;> simp [readDigits, hd]
  | cons x xs ih => cases hx : digit x <;> simp [readDigits, hx, ih]

theorem hexDigit_hexChar : ∀ d < 16, hexDigit (hexChar d) = some d := by decide

theorem readDigits_printHex {k n : Nat} (h : n < 16 ^ k) : readDigits 16 hexDigit 0 (printHex k n) = some n := by
  induction k generalizing n with
  | zero =>
    obtain rfl : n = 0 := by omega
    rfl
  | succ k ih =>
    rw [printHex, readDigits_concat, ih (by omega), hexDigit_hexChar _ (by omega)]
    simp
    omega

theorem readDigits_printDecimalFuel {k n : Nat} (h : n < 10 ^ (k + 1)) :
    readDigits 10 decDigit 0 (printDecimalFuel k n) = some n := by
  induction k generalizing n with
  | zero =>
    have hlt : n < 10 := h
    rw [printDecimalFuel, Nat.mod_eq_of_lt hlt]
    simp [readDigits, decDigit_hexChar hlt]
  | succ k ih =>
    rw [printDecimalFuel]
    split
    · next hlt => simp [readDigits, decDigit_hexChar hlt]
    · rw [readDigits_concat, ih (by omega), decDigit_hexChar (by omega)]
      simp
      omega

/-- A run of digits that is read is the one printed with its length. -/
theorem eq_printFixed_of_readDigits {cs : List Char} {n : Nat} (h : readDigits 10 decDigit 0 cs = some n) :
    cs = printFixed cs.length n := by
  induction cs using List.reverseRecOn generalizing n with
  | nil => rfl
  | append_singleton cs c ih =>
    rw [readDigits_concat] at h
    obtain ⟨v, hv, hc⟩ := Option.bind_eq_some_iff.1 h
    obtain ⟨d, hd, rfl⟩ := Option.map_eq_some_iff.1 hc
    obtain ⟨hlt, rfl⟩ := eq_hexChar_of_decDigit hd
    rw [List.length_append, List.length_singleton, printFixed, show (v * 10 + d) / 10 = v by omega,
      show (v * 10 + d) % 10 = d by omega, ← ih hv]

/-! ## Numbers (R52) -/

theorem readDecimal_of_ne_nil {cs : List Char} (h : cs ≠ []) : readDecimal cs = readDigits 10 decDigit 0 cs := by
  cases cs with
  | nil => exact absurd rfl h
  | cons c cs => rfl

theorem readDecimal_cons_of_not_digit {c : Char} (h : decDigit c = none) (cs : List Char) :
    readDecimal (c :: cs) = none := by
  simp [readDecimal, readDigits, h]

theorem printDecimal_ne_nil (n : Nat) : printDecimal n ≠ [] := by
  unfold printDecimal printDecimalFuel
  split <;> simp

theorem readDecimal_printDecimal {n : Nat} (h : n < 10 ^ 20) : readDecimal (printDecimal n) = some n :=
  (readDecimal_of_ne_nil (printDecimal_ne_nil n)).trans (readDigits_printDecimalFuel h)

/-- A text that does not begin with `-` is read as an unsigned integer. -/
theorem readSigned_of_head_ne {c : Char} (h : c ≠ '-') (cs : List Char) :
    readSigned (c :: cs) = (readDecimal (c :: cs)).map fun n => (n : Int) := by
  unfold readSigned
  split
  · next heq =>
    cases heq
    exact absurd rfl h
  · rfl

theorem readSigned_of_readDecimal {cs : List Char} {n : Nat} (h : readDecimal cs = some n) :
    readSigned cs = some (n : Int) := by
  cases cs with
  | nil => cases h
  | cons c cs =>
    have hminus : c ≠ '-' := by
      rintro rfl
      rw [readDecimal_cons_of_not_digit (by decide)] at h
      cases h
    rw [readSigned_of_head_ne hminus, h]
    rfl

theorem readSigned_printSigned {t : Int} (h : t.natAbs < 10 ^ 20) : readSigned (printSigned t) = some t := by
  unfold printSigned
  split
  · rw [readSigned, readDecimal_printDecimal h]
    refine congrArg some (show -(t.natAbs : Int) = t from ?_)
    omega
  · rw [readSigned_of_readDecimal (readDecimal_printDecimal h)]
    congr 1
    omega

/-! ## Lines of two tokens (R52) -/

/-- A character that neither ends a token nor begins a comment. -/
def isTokenChar (c : Char) : Bool := !isBlank c && c != ';'

theorem isBlank_of_isTokenChar {c : Char} (h : isTokenChar c = true) : isBlank c = false := by
  simp_all [isTokenChar]

theorem ne_semicolon_of_isTokenChar {c : Char} (h : isTokenChar c = true) : (c != ';') = true := by
  simp_all [isTokenChar]

/-- A blank-free text goes on with the token being read. -/
theorem splitTokens_append {ws : List Char} (h : ws.all isTokenChar = true) (cur rest : List Char) :
    splitTokens cur (ws ++ rest) = splitTokens (ws.reverse ++ cur) rest := by
  induction ws generalizing cur with
  | nil => rfl
  | cons c ws ih =>
    rw [List.all_cons, Bool.and_eq_true] at h
    obtain ⟨hc, hws⟩ := h
    rw [List.cons_append, splitTokens, isBlank_of_isTokenChar hc, if_neg (by decide), ih hws]
    simp

theorem splitTokens_two_tokens {name arg : List Char} (hname : name.all isTokenChar = true)
    (harg : arg.all isTokenChar = true) (hn : name ≠ []) (ha : arg ≠ []) :
    splitTokens [] (name ++ ' ' :: arg) = [name, arg] := by
  have htail := splitTokens_append harg [] []
  rw [List.append_nil] at htail
  rw [splitTokens_append hname, splitTokens, if_pos (by decide), htail]
  simp [splitTokens, hn, ha]

theorem beforeComment_two_tokens {name arg : List Char} (hname : name.all isTokenChar = true)
    (harg : arg.all isTokenChar = true) : beforeComment (name ++ ' ' :: arg) = name ++ ' ' :: arg := by
  rw [List.all_eq_true] at hname harg
  refine List.takeWhile_eq_self_iff.2 fun c hc => ?_
  rw [List.mem_append, List.mem_cons] at hc
  obtain hc | rfl | hc := hc
  · exact ne_semicolon_of_isTokenChar (hname c hc)
  · rfl
  · exact ne_semicolon_of_isTokenChar (harg c hc)

/-- A line of two tokens is assembled as its command. -/
theorem assembleLine_two_tokens {name arg : List Char} (hname : name.all isTokenChar = true)
    (harg : arg.all isTokenChar = true) (hn : name ≠ []) (ha : arg ≠ []) :
    assembleLine (name ++ ' ' :: arg) = assembleCommand name arg := by
  rw [assembleLine, beforeComment_two_tokens hname harg, splitTokens_two_tokens hname harg hn ha]

theorem isTokenChar_hexChar : ∀ d < 16, isTokenChar (hexChar d) = true := by decide

theorem printHex_all_isTokenChar (k n : Nat) : (printHex k n).all isTokenChar = true := by
  induction k generalizing n with
  | zero => rfl
  | succ k ih => simp [printHex, ih, isTokenChar_hexChar _ (show n % 16 < 16 by omega)]

theorem printFixed_all_isTokenChar (k n : Nat) : (printFixed k n).all isTokenChar = true := by
  induction k generalizing n with
  | zero => rfl
  | succ k ih => simp [printFixed, ih, isTokenChar_hexChar _ (show n % 10 < 16 by omega)]

theorem printDecimalFuel_all_isTokenChar (k n : Nat) : (printDecimalFuel k n).all isTokenChar = true := by
  induction k generalizing n with
  | zero => simp [printDecimalFuel, isTokenChar_hexChar _ (show n % 10 < 16 by omega)]
  | succ k ih =>
    rw [printDecimalFuel]
    split
    · simp [isTokenChar_hexChar n (by omega)]
    · simp [ih, isTokenChar_hexChar _ (show n % 10 < 16 by omega)]

theorem printDecimal_all_isTokenChar (n : Nat) : (printDecimal n).all isTokenChar = true :=
  printDecimalFuel_all_isTokenChar 19 n

theorem printSigned_all_isTokenChar (t : Int) : (printSigned t).all isTokenChar = true := by
  unfold printSigned
  split
  · rw [List.all_cons, printDecimal_all_isTokenChar, Bool.and_true]
    rfl
  · exact printDecimal_all_isTokenChar _

theorem printSigned_ne_nil (t : Int) : printSigned t ≠ [] := by
  unfold printSigned
  split
  · simp
  · exact printDecimal_ne_nil _

/-! ## The commands (R52, R55) -/

theorem assembleCommand_prepare (arg : List Char) :
    assembleCommand prepareName arg
      = (readInstant arg).bind fun t => (fittingWord (.prepare t)).map fun w => [w] := by
  simp [assembleCommand, Option.map_eq_bind]

theorem assembleCommand_getmod (arg : List Char) :
    assembleCommand getmodName arg
      = (readSecond arg).bind fun n => (fittingWord (.getmod n)).map fun w => [w] := by
  simp [assembleCommand, show getmodName ≠ prepareName by decide, Option.map_eq_bind]

theorem assembleCommand_word (arg : List Char) :
    assembleCommand wordName arg = (readRawWord arg).map fun w => [w] := by
  simp [assembleCommand, show wordName ≠ prepareName by decide, show wordName ≠ getmodName by decide,
    Option.map_eq_bind]

theorem fittingWord_of_wellFormed {i : Instr} (h : i.wellFormed = true) : fittingWord i = some (encode i) := if_pos h

/-- What is decoded from a word fits, and assembles to that word. -/
theorem fittingWord_of_decode {w : CmdWord} {i : Instr} (h : decode w = .instr i) : fittingWord i = some w := by
  rw [fittingWord_of_wellFormed (wellFormed_of_decode h), encode_of_decode h]

theorem length_printHex (k n : Nat) : (printHex k n).length = k := by
  induction k generalizing n with
  | zero => rfl
  | succ k ih => rw [printHex, List.length_append, ih, List.length_singleton]

theorem readHexExactly_printHex {k n : Nat} (h : n < 16 ^ k) : readHexExactly k (printHex k n) = some n := by
  rw [readHexExactly, if_pos (length_printHex k n), readDigits_printHex h]

/-- The argument of `.word` for an opcode and an operand (R52). -/
def rawWordText (opc : Opcode) (operand : BitVec 64) : List Char :=
  '0' :: 'x' :: (printHex 2 opc.toNat ++ '_' :: printHex 16 operand.toNat)

theorem readRawWord_rawWordText (opc : Opcode) (operand : BitVec 64) :
    readRawWord (rawWordText opc operand) = some (packCommand opc operand) := by
  have htwo : printHex 2 opc.toNat = [hexChar (opc.toNat / 16 % 16), hexChar (opc.toNat % 16)] := rfl
  have hopc : readHexExactly 2 (printHex 2 opc.toNat) = some opc.toNat := readHexExactly_printHex opc.isLt
  have hoperand : readHexExactly 16 (printHex 16 operand.toNat) = some operand.toNat :=
    readHexExactly_printHex operand.isLt
  rw [htwo] at hopc
  rw [rawWordText, htwo]
  simp [readRawWord, hopc, hoperand]

theorem rawWordText_all_isTokenChar (opc : Opcode) (operand : BitVec 64) :
    (rawWordText opc operand).all isTokenChar = true := by
  have punctuation : isTokenChar '0' = true ∧ isTokenChar 'x' = true ∧ isTokenChar '_' = true := by decide
  simp only [rawWordText, List.all_cons, List.all_append, printHex_all_isTokenChar, punctuation, Bool.and_true]

theorem assembleLine_printSigned {w : CmdWord} {t : Int} (h : decode w = .instr (.prepare t)) :
    assembleLine (prepareName ++ ' ' :: printSigned t) = some [w] := by
  have hfit := wellFormed_of_decode h
  simp only [Instr.wellFormed, Bool.and_eq_true, decide_eq_true_eq] at hfit
  rw [assembleLine_two_tokens (by decide) (printSigned_all_isTokenChar t) (by decide) (printSigned_ne_nil t),
    assembleCommand_prepare, readInstant, readSigned_printSigned (by omega), Option.some_or, Option.bind_some,
    fittingWord_of_decode h, Option.map_some]

theorem assembleLine_printDecimal {w : CmdWord} {n : Nat} (h : decode w = .instr (.getmod n)) :
    assembleLine (getmodName ++ ' ' :: printDecimal n) = some [w] := by
  have hfit := wellFormed_of_decode h
  simp only [Instr.wellFormed, decide_eq_true_eq] at hfit
  rw [assembleLine_two_tokens (by decide) (printDecimal_all_isTokenChar n) (by decide) (printDecimal_ne_nil n),
    assembleCommand_getmod, readSecond, readDecimal_printDecimal (by omega), Option.some_or, Option.bind_some,
    fittingWord_of_decode h, Option.map_some]

theorem assembleLine_rawWordText (w : CmdWord) :
    assembleLine (wordName ++ ' ' :: rawWordText (opcOf w) (operandOf w)) = some [w] := by
  rw [assembleLine_two_tokens (by decide) (rawWordText_all_isTokenChar ..) (by decide) (List.cons_ne_nil _ _),
    assembleCommand_word, readRawWord_rawWordText, packCommand_fields, Option.map_some]

/-- Settles O54: each form of the printed line has two tokens, whose argument is read back. -/
theorem assembleOfDisassembleIsIdentity : Obligations.AssembleOfDisassembleIsIdentity := by
  intro w
  obtain ⟨-, hdec⟩ | ⟨-, hdec⟩ | ⟨-, -, hdec⟩ := decode_cases w <;> simp only [disassemble, hdec]
  · exact assembleLine_printSigned hdec
  · exact assembleLine_printDecimal hdec
  · exact assembleLine_rawWordText w

/-! ## ISO literals (R53) -/

theorem readIso_isoText {y m d h mi sec : Nat} (hy : y ≤ 9999) (hm : m ≤ 99) (hd : d ≤ 99) (hh : h ≤ 99)
    (hmi : mi ≤ 99) (hsec : sec ≤ 99) : readIso (isoText y m d h mi sec) = isoInstant y m d h mi sec := by
  simp [readIso, isoText, readField_printFixed_four hy, readField_printFixed_two, hm, hd, hh, hmi, hsec]

/-- A field that is read is the text printed for it. -/
theorem eq_printFixed_of_readField {k n : Nat} {close : Char} {cs rest : List Char}
    (h : readField k close cs = some (n, rest)) : cs = printFixed k n ++ close :: rest := by
  unfold readField at h
  split at h
  · next n' c rest' hnum hdrop =>
    split at h
    · next hform =>
      obtain ⟨rfl, hlen⟩ := hform
      cases h
      have hne : cs.take k ≠ [] := fun hnil => by simp [hnil, readDecimal] at hnum
      rw [readDecimal_of_ne_nil hne] at hnum
      have htake := eq_printFixed_of_readDigits hnum
      rw [hlen] at htake
      rw [← htake, ← hdrop, List.take_append_drop]
    · cases h
  · cases h

/-- A text that is read as an ISO literal is read field by field. -/
theorem eq_isoText_of_readIso {cs : List Char} {t : Int} (h : readIso cs = some t) :
    ∃ y m d h mi sec : Nat, cs = isoText y m d h mi sec ∧ isoInstant y m d h mi sec = some t := by
  unfold readIso at h
  split at h
  · next cs =>
    simp only [Option.bind_eq_bind, Option.bind_eq_some_iff, Prod.exists] at h
    obtain ⟨y, cs1, hy, m, cs2, hm, d, cs3, hd, hh, cs4, hhour, mi, cs5, hmi, sec, cs6, hsec, hend⟩ := h
    split at hend
    · next hnil =>
      refine ⟨y, m, d, hh, mi, sec, ?_, hend⟩
      rw [eq_printFixed_of_readField hy, eq_printFixed_of_readField hm, eq_printFixed_of_readField hd,
        eq_printFixed_of_readField hhour, eq_printFixed_of_readField hmi, eq_printFixed_of_readField hsec,
        List.isEmpty_iff.1 hnil]
      rfl
    · cases hend
  · cases h

theorem isoText_all_isTokenChar (y m d h mi sec : Nat) : (isoText y m d h mi sec).all isTokenChar = true := by
  have punctuation : isTokenChar '@' = true ∧ isTokenChar '-' = true ∧ isTokenChar 'T' = true
      ∧ isTokenChar ':' = true ∧ isTokenChar 'Z' = true := by decide
  simp only [isoText, List.all_cons, List.all_append, List.all_nil, printFixed_all_isTokenChar, punctuation,
    Bool.and_true]

/-- Only an ISO literal begins with `@`. -/
theorem readInstant_at (cs : List Char) : readInstant ('@' :: cs) = readIso ('@' :: cs) := by
  rw [readInstant, readSigned_of_head_ne (by decide), readDecimal_cons_of_not_digit (by decide)]
  rfl

theorem wellFormed_of_isoInstant {y m d h mi sec : Nat} {t : Int} (ht : isoInstant y m d h mi sec = some t) :
    (Instr.prepare t).wellFormed = true := by
  obtain ⟨-, hdom, -⟩ := (isoLiteralNamesItsInstant y m d h mi sec).2 t ht
  exact wellFormed_prepare_of_inDomain hdom

theorem assembleLine_isoText {y m d h mi sec : Nat}
    (hread : readIso (isoText y m d h mi sec) = isoInstant y m d h mi sec) :
    assembleLine (prepareName ++ ' ' :: isoText y m d h mi sec)
      = (isoInstant y m d h mi sec).map (fun t => [encode (.prepare t)]) := by
  have hinst : readInstant (isoText y m d h mi sec) = isoInstant y m d h mi sec := (readInstant_at _).trans hread
  rw [assembleLine_two_tokens (by decide) (isoText_all_isTokenChar ..) (by decide) (List.cons_ne_nil _ _),
    assembleCommand_prepare, hinst]
  cases ht : isoInstant y m d h mi sec with
  | none => rfl
  | some t =>
    rw [Option.bind_some, fittingWord_of_wellFormed (wellFormed_of_isoInstant ht)]
    rfl

/-- Settles O58: the fields are read in their order and nothing else is, and the instant of an ISO literal fits the
operand. -/
theorem isoLiteralTextAssembles : Obligations.IsoLiteralTextAssembles := by
  refine ⟨fun y m d h mi sec hy hm hd hh hmi hsec => ?_, fun cs t => eq_isoText_of_readIso, by decide⟩
  have hread := readIso_isoText hy hm hd hh hmi hsec
  exact ⟨hread, assembleLine_isoText hread⟩

end Sys2Proof.Machine
end
